-- ==== Sys2Proof/Word.lean ====
section
/-! DEFINITION. The words of the pixel formatter block (spec 00_scope.md R8, R9): bits are numbered from 0, the least
significant. -/

namespace Sys2Proof

/-- A buffer byte (R9). -/
abbrev Byte := BitVec 8

/-- A word of the bus: the width of every register and of the bus data (R8, R21). -/
abbrev Word := BitVec 32

/-- A block offset, the address inside the block (R8). -/
abbrev Offset := BitVec 22

/-- The record that encodes one host bus transaction (R99). -/
abbrev Record := BitVec 64

end Sys2Proof
end

