-- ==== Sys2Proof/Config.lean ====
section
/-! DEFINITION. What an implementation of the block fixes (the OPEN parameters of 00_scope.md R7) and the values the spec
leaves free (70_reset_and_hazards.md R221: the buffer bytes after a hard reset). -/

namespace Sys2Proof

/-- The three OPEN parameters of 00_scope.md R7. They are data of the machine, so that every claim is a claim about every
size; no step writes them. `Params.valid` (WellFormed.lean) is the rule's constraint column. -/
structure Params where
  /-- Bus address of offset 0 of the block (D3). -/
  base : Nat
  /-- Size of IBUF in bytes (D4). -/
  ibufBytes : Nat
  /-- Size of OBUF in bytes (D4). -/
  obufBytes : Nat
  deriving DecidableEq, Repr

/-- The reference configuration of the spec's vectors (00_scope.md R7), with BASE 0. DESIGN CHOICE, unsafe: the spec leaves
all three OPEN (notes/assumptions/1.md). Only `State.reset` uses it. -/
def Config.reference : Params := { base := 0, ibufBytes := 4096, obufBytes := 4096 }

/-- FREE VALUE: what byte `i` of IBUF holds after the `n`-th hard reset, until it is written (R37, R221, D22, D32: "a free draw
per byte"). It has no body: nothing can be proved of it (notes/assumptions/2.md). -/
opaque Config.ibufFree : (n i : Nat) → Byte

/-- FREE VALUE: what byte `i` of OBUF holds after the `n`-th hard reset, until it is written (R38, R221, D22, D32). -/
opaque Config.obufFree : (n i : Nat) → Byte

end Sys2Proof
end

