-- ==== Sys2Proof/Syntax.lean ====
section
/-! DEFINITION. What the host and the block are told to do: the nine instructions of spec/opcode_table.json, the three
commands among them, the registers a host names, and the host's script (30_encoding.md R95, R98 to R101). -/

namespace Sys2Proof

/-- The three operations of the block (00_scope.md R1), as OP.CODE selects them (30_encoding.md R95). -/
inductive Command where
  /-- The monochrome bitmap packer (41_pack.md). -/
  | pack
  /-- The premultiplied-RGBA word formatter (42_premul.md). -/
  | premul
  /-- The raw-deflate container stripper (43_strip.md). -/
  | strip
  deriving DecidableEq, Repr

/-- The instructions: one constructor per row of spec/opcode_table.json. A command's operands are the operand registers
(30_encoding.md R93); a transaction's are its block offset and, for a write, its 32 bits of data (R99). Every operand has
exactly its field's width, and a read has no DATA operand because that field "must be 0 for a read" (R99). -/
inductive Instr where
  /-- PACK: CMD code 0001. -/
  | pack
  /-- PREMUL: CMD code 0010. -/
  | premul
  /-- STRIP: CMD code 0011. -/
  | strip
  /-- An 8-bit host read. -/
  | rd8 (off : Offset)
  /-- A 16-bit host read. -/
  | rd16 (off : Offset)
  /-- A 32-bit host read. -/
  | rd32 (off : Offset)
  /-- An 8-bit host write. -/
  | wr8 (off : Offset) (data : Word)
  /-- A 16-bit host write. -/
  | wr16 (off : Offset) (data : Word)
  /-- A 32-bit host write. -/
  | wr32 (off : Offset) (data : Word)
  deriving DecidableEq, Repr

/-- The instruction a command is. -/
def Command.instr : Command → Instr
  | .pack => .pack
  | .premul => .premul
  | .strip => .strip

/-- The two encoded forms of 30_encoding.md R90. -/
inductive Encoding where
  /-- CMD: the 4 bits of OP.CODE, the command's whole encoding. -/
  | cmd (code : BitVec 4)
  /-- HOSTTX: the 64-bit record of one host access. -/
  | hosttx (rec : Record)
  deriving DecidableEq, Repr

/-- The twelve registers of 10_state.md R21, which are also the register symbols of 30_encoding.md R101. -/
inductive Reg where
  | id | ctrl | status | op | src | dst | width | height | len | rowBytes | outCount | hdr
  deriving DecidableEq, Repr

/-- One line of a host script (30_encoding.md R98). Labels are numbers here (notes/assumptions/7.md). -/
inductive Stmt where
  /-- A transaction, as its HOSTTX record; `dest` is the `-> tN` of a read, and absent on a write. -/
  | tx (rec : Record) (dest : Option Nat)
  /-- `label:` -/
  | label (l : Nat)
  /-- `bz tN, MASK, label`: go to `label` if `(tN & MASK) = 0`. -/
  | bz (t : Nat) (mask : Word) (l : Nat)
  /-- `bnz tN, MASK, label`: go to `label` if `(tN & MASK) != 0`. -/
  | bnz (t : Nat) (mask : Word) (l : Nat)
  /-- `halt`: the end of the script. -/
  | halt
  deriving DecidableEq, Repr

/-- The pseudo-instructions of the script syntax (30_encoding.md R100). -/
inductive Pseudo where
  | pack (dst src w h : Word) (ie : Bool)
  | premul (dst src w h : Word) (ie : Bool)
  | strip (dst src len : Word) (ie : Bool)
  /-- `wait_done tN`; `l` is the label its loop uses. -/
  | waitDone (t l : Nat)
  | ack
  | srst
  deriving DecidableEq, Repr

end Sys2Proof
end

