-- ==== Sys2Proof/WellFormed.lean ====
section
/-! DEFINITION. The checks on what a machine is given: its parameters (00_scope.md R7), HOSTTX records (30_encoding.md R96,
R99) and host scripts (93_implementation_defined.md 1.3). An `Instr` needs no check of its own: its operands have exactly the
widths of the encoding's fields, and a read carries no DATA. -/

namespace Sys2Proof

/-- The constraint column of 00_scope.md R7. -/
def Params.valid (p : Params) : Bool :=
  p.base % 0x400000 == 0
    && p.ibufBytes % 4 == 0 && decide (8 ≤ p.ibufBytes) && decide (p.ibufBytes ≤ 0x100000)
    && p.obufBytes % 4 == 0 && decide (8 ≤ p.obufBytes) && decide (p.obufBytes ≤ 0x100000)

/-- Bits 63:54 of a record, the ones R99's mask `0xFFC0_0000_0000_0000` keeps. -/
def Record.kind (r : Record) : Record := r &&& 0xFFC0000000000000#64

/-- A valid record (R99): bits 63:54 are one of the six match patterns, and DATA is 0 on a read. R96 and
93_implementation_defined.md 1.3 refuse every other record. -/
def Record.wf (r : Record) : Bool :=
  if r.kind = 0x0000000000000000#64 ∨ r.kind = 0x1000000000000000#64 ∨ r.kind = 0x2000000000000000#64 then
    r &&& 0xFFFFFFFF#64 == 0#64
  else
    r.kind = 0x8000000000000000#64 ∨ r.kind = 0x9000000000000000#64 ∨ r.kind = 0xA000000000000000#64

/-- A well-formed script line inside `script` (R98, 93_implementation_defined.md 1.3): a valid record; a read, and only a
read, names a temporary; temporaries are t0 to t7; a branch names a label of the script. -/
def Stmt.wf (script : List Stmt) : Stmt → Bool
  | .tx r none => r.wf && r.getLsbD 63
  | .tx r (some t) => r.wf && !r.getLsbD 63 && decide (t < 8)
  | .label _ => true
  | .bz t _ l => decide (t < 8) && script.contains (.label l)
  | .bnz t _ l => decide (t < 8) && script.contains (.label l)
  | .halt => true

/-- A well-formed host script: every line is. -/
def scriptWf (script : List Stmt) : Bool := script.all (Stmt.wf script)

end Sys2Proof
end

