-- ==== Sys2Proof/Decode.lean ====
section
/-! DEFINITION. The decoders of the two encoded forms (30_encoding.md R90 to R99), total on all bits and rejecting by name,
and after them the encoder, from the same tables. -/

namespace Sys2Proof

/-- Why bits are no instruction. -/
inductive DecodeError where
  /-- A reserved CMD code, 0 or 4 to 15 (R96). At an accept this is the command error BADOP, not a stop. -/
  | reservedCommand (code : BitVec 4)
  /-- SZ is 011 to 111 (R99). -/
  | invalidSize (sz : BitVec 3)
  /-- Bits 59:54 are not 0 (R99). -/
  | reservedBits (bits : BitVec 6)
  /-- DATA is not 0 on a read (R99). -/
  | readWithData (data : Word)
  deriving DecidableEq, Repr

/-! The fields of a HOSTTX record (R99). -/

/-- Bit 63, W: 1 is a write. -/
def Record.isWrite (r : Record) : Bool := r.getLsbD 63

/-- Bits 62:60, SZ. -/
def Record.size (r : Record) : BitVec 3 := r.extractLsb' 60 3

/-- Bits 59:54, which must be 0. -/
def Record.zeroBits (r : Record) : BitVec 6 := r.extractLsb' 54 6

/-- Bits 53:32, OFF. -/
def Record.offset (r : Record) : Offset := r.extractLsb' 32 22

/-- Bits 31:0, DATA. -/
def Record.data (r : Record) : Word := r.extractLsb' 0 32

/-- The command of an OP.CODE value (R95); codes 0 and 4 to 15 are reserved (R96). -/
def decodeCode (code : BitVec 4) : Except DecodeError Command :=
  if code = 0b0001#4 then .ok .pack
  else if code = 0b0010#4 then .ok .premul
  else if code = 0b0011#4 then .ok .strip
  else .error (.reservedCommand code)

/-- The transaction of a HOSTTX record (R99). -/
def decodeTx (r : Record) : Except DecodeError Instr :=
  if r.zeroBits ≠ 0#6 then .error (.reservedBits r.zeroBits)
  else if r.isWrite then
    if r.size = 0b000#3 then .ok (.wr8 r.offset r.data)
    else if r.size = 0b001#3 then .ok (.wr16 r.offset r.data)
    else if r.size = 0b010#3 then .ok (.wr32 r.offset r.data)
    else .error (.invalidSize r.size)
  else if r.data ≠ 0#32 then .error (.readWithData r.data)
  else
    if r.size = 0b000#3 then .ok (.rd8 r.offset)
    else if r.size = 0b001#3 then .ok (.rd16 r.offset)
    else if r.size = 0b010#3 then .ok (.rd32 r.offset)
    else .error (.invalidSize r.size)

/-- The instruction of either encoded form (R90). -/
def decode : Encoding → Except DecodeError Instr
  | .cmd code => (decodeCode code).map Command.instr
  | .hosttx r => decodeTx r

/-- The instruction of `nbits` bits numbered as spec/opcode_table.json numbers them: a CMD row has 4 bits (one byte when
counted in whole bytes), of which OP keeps bits 3:0 and ignores the rest (R91); a HOSTTX row has 64. -/
def decodeTableWord (nbits w : Nat) : Option Instr :=
  if nbits ≤ 32 then (decode (.cmd (BitVec.ofNat 4 w))).toOption
  else (decode (.hosttx (BitVec.ofNat 64 w))).toOption

/-! The encoder. -/

/-- The CMD code of a command (R95). -/
def Command.code : Command → BitVec 4
  | .pack => 0b0001#4
  | .premul => 0b0010#4
  | .strip => 0b0011#4

/-- The record with these fields (R99): W, SZ, six zero bits, OFF, DATA. -/
def hosttxRecord (w : Bool) (sz : BitVec 3) (off : Offset) (data : Word) : Record :=
  BitVec.ofBool w ++ sz ++ 0#6 ++ off ++ data

/-- The encoding of an instruction (R95, R99). -/
def encode : Instr → Encoding
  | .pack => .cmd Command.pack.code
  | .premul => .cmd Command.premul.code
  | .strip => .cmd Command.strip.code
  | .rd8 off => .hosttx (hosttxRecord false 0b000#3 off 0#32)
  | .rd16 off => .hosttx (hosttxRecord false 0b001#3 off 0#32)
  | .rd32 off => .hosttx (hosttxRecord false 0b010#3 off 0#32)
  | .wr8 off data => .hosttx (hosttxRecord true 0b000#3 off data)
  | .wr16 off data => .hosttx (hosttxRecord true 0b001#3 off data)
  | .wr32 off data => .hosttx (hosttxRecord true 0b010#3 off data)

end Sys2Proof
end

