-- ==== Sys2Proof/Machine/State.lean ====
section
/-! DEFINITION. The state of the machine as plain data: the block's state tuple (10_state.md R42), its parameters
(00_scope.md R7), its bus port, the host's side (30_encoding.md R98) and the order of turns (20_memory.md R72); the reasons
a step can stop; and the state after reset. -/

namespace Sys2Proof.Machine

/-- A buffer: its bytes written since the last hard reset, addresses strictly rising (`Memory.wf`). A byte that is not listed
has not been written: it reads as the free value of `Config` (`State.ibufByte`, `State.obufByte`). -/
abbrev Memory := List Host.Cell

/-- The response of the bus slave port to a host access (10_state.md R20, 20_memory.md R66). -/
inductive Reply where
  /-- OKAY, to a read that returns `v`. -/
  | data (v : Word)
  /-- OKAY, to a write. -/
  | done
  /-- SLVERR; a read then returns read data 0. -/
  | slverr
  deriving DecidableEq, Repr

/-- What happens next: the single order of 20_memory.md R72, and the hard resets that may fall between any two steps
(60_exceptions.md R193). -/
inductive Turn where
  /-- The host's next script line. -/
  | host
  /-- The engine's next step, if it is enabled. -/
  | engine
  /-- The RST port is high. -/
  | hardReset
  deriving DecidableEq, Repr

/-- The command errors of 60_exceptions.md R191. -/
inductive CmdError where
  | badop | align | short | range | method | fdict
  deriving DecidableEq, Repr

/-- The machine. The first group is the spec's own tuple (R42), field for field; ID, ROW_BYTES, STATUS.IRQ and the IRQ port
are functions of it. -/
structure State where
  /-- CTRL.IE (R23). -/
  ie : Bool
  /-- STATUS.BUSY (R24). -/
  busy : Bool
  /-- STATUS.DONE (R24). -/
  done : Bool
  /-- STATUS.ERR (R24). -/
  err : Bool
  /-- STATUS.ERRCODE (R24). -/
  errCode : BitVec 4
  /-- OP.CODE (R25). -/
  opCode : BitVec 4
  /-- SRC (R26). -/
  src : Word
  /-- DST (R27). -/
  dst : Word
  /-- LEN (R30). -/
  len : Word
  /-- WIDTH.W (R28). -/
  width : BitVec 16
  /-- HEIGHT.H (R29). -/
  height : BitVec 16
  /-- OUT_COUNT.COUNT (R32). -/
  outCount : BitVec 21
  /-- HDR.CMF (R33). -/
  hdrCmf : Byte
  /-- HDR.FLG (R33). -/
  hdrFlg : Byte
  /-- IBUF (R37). -/
  ibuf : Memory
  /-- OBUF (R38). -/
  obuf : Memory
  /-- BASE, IBUF_BYTES and OBUF_BYTES (00_scope.md R7). No step writes them. -/
  cfg : Params
  /-- The MODEL's own field: how many hard resets there have been, which selects the draw of the free buffer bytes (R221). -/
  hardResets : Nat
  /-- The bus port's response to the last access; none before the first. -/
  reply : Option Reply
  /-- The host's script (R98). -/
  script : List Stmt
  /-- The host's place in its script. -/
  pos : Nat
  /-- The script's temporaries t0 to t7 (R98). -/
  temps : Vector Word 8
  /-- The script's trace, oldest first: the line of each access and its response (R98, R198). -/
  trace : List (Nat × Reply)
  /-- The MODEL's own field: the turns to come, the free interleaving of R72 as data (notes/assumptions/3.md). -/
  schedule : List Turn
  deriving DecidableEq, Repr

/-- Why the machine stops with a fault. The block itself never stops: its command errors and bus errors are next states. -/
inductive Fault where
  /-- An engine step would read an IBUF byte that does not exist. Raised by `engineRead`. Safe: R112 shows that no accepted
  command forms such an index, so no run reaches it. -/
  | engineReadOutsideIbuf
  /-- An engine step would write an OBUF byte that does not exist. Raised by `State.engineWrite`. Safe, as above (R112). -/
  | engineWriteOutsideObuf
  /-- BUSY is 1 with a reserved OP.CODE, for which R115 has no unit. Raised by `engineTurn`. Safe: an accept of a reserved code
  fails with BADOP and leaves BUSY 0 (R111, R194), and OP cannot be written while BUSY (R119). -/
  | engineWithoutCommand
  deriving DecidableEq, Repr

/-- Why the machine refuses a step. -/
inductive Refusal where
  /-- An instruction with no meaning yet, by its mnemonic. Raised by no arm: every instruction has its meaning. Safe. -/
  | notModelled (mnemonic : String)
  /-- The script's line holds no valid HOSTTX record, "not a valid transaction" (R96, 93_implementation_defined.md 1.3). Raised
  by `hostTurn`. Safe: the spec says that a model should refuse them. -/
  | invalidTransaction (why : DecodeError)
  /-- The script's line is not valid script: a branch to an undefined label, a temporary other than t0 to t7, a read without a
  temporary or a write with one (R98, 93_implementation_defined.md 1.3). Raised by `hostTurn`. Safe, for the same reason. -/
  | invalidScript
  deriving DecidableEq, Repr

/-- The state right after a hard reset of a block with parameters `cfg` (70_reset_and_hazards.md R221), with no script loaded
and no turn scheduled. -/
def State.resetWith (cfg : Params) : State where
  ie := false
  busy := false
  done := false
  err := false
  errCode := 0
  opCode := 0
  src := 0
  dst := 0
  len := 0
  width := 0
  height := 0
  outCount := 0
  hdrCmf := 0
  hdrFlg := 0
  ibuf := []
  obuf := []
  cfg := cfg
  hardResets := 0
  reply := none
  script := []
  pos := 0
  temps := Vector.replicate 8 0
  trace := []
  schedule := []

/-- The machine right after reset, in the reference configuration (notes/assumptions/1.md). -/
def State.reset : State := State.resetWith Config.reference

end Sys2Proof.Machine
end

