-- ==== Sys2Proof/Machine/Flags.lean ====
section
/-! DEFINITION. The flags of the block (10_state.md R24, R34, R39): the interrupt line, the STATUS word, the error codes, and
what sets and clears the flags. -/

namespace Sys2Proof.Machine

/-- The IRQ port and STATUS.IRQ, at all times (R34). -/
def State.irq (s : State) : Bool := s.done && s.ie

/-- The STATUS register (R24): bits 0 BUSY, 1 DONE, 2 ERR, 3 IRQ, 11:8 ERRCODE, the rest 0. -/
def State.statusWord (s : State) : Word :=
  0#20 ++ s.errCode ++ 0#4 ++ BitVec.ofBool s.irq ++ BitVec.ofBool s.err ++ BitVec.ofBool s.done ++ BitVec.ofBool s.busy

/-- The codes of the command errors (R191). -/
def CmdError.code : CmdError → BitVec 4
  | .badop => 1
  | .align => 2
  | .short => 3
  | .range => 4
  | .method => 5
  | .fdict => 6

/-- The first lines of an accept (R110): DONE, ERR, ERRCODE and OUT_COUNT become 0. -/
def State.clearOutcome (s : State) : State :=
  { s with done := false, err := false, errCode := 0, outCount := 0 }

/-- Completion without error (R116). -/
def State.completeOk (s : State) : State := { s with busy := false, done := true }

/-- Error completion, `fail(c)` of R194: the block's stand-in for taking an exception. What it saves is ERRCODE and ERR (and HDR,
captured before it); control returns to the host with the OKAY response of its write. -/
def State.fail (s : State) (e : CmdError) : State :=
  { s with errCode := e.code, err := true, busy := false, done := true }

/-- The return from a completion: the W1C write of STATUS.DONE (R24, R196). ERR and ERRCODE keep their values. -/
def State.clearDone (s : State) : State := { s with done := false }

/-- The accept of a command with work to do (R114): BUSY becomes 1 and nothing else changes. -/
def State.beginRun (s : State) : State := { s with busy := true }

end Sys2Proof.Machine
end

