-- ==== Sys2Proof/Machine/Ops.lean ====
section
/-! DEFINITION. The named operations over the buffers, the bus port and the resets (20_memory.md R63 to R66, R71;
70_reset_and_hazards.md R221, R222), and the parts every command shares: the checks' frame, the accept and the engine step
(40_command.md R110 to R116). Taking an error completion and its return are `State.fail` and `State.clearDone` (Flags.lean),
which these call. -/

namespace Sys2Proof.Machine

/-! ## Buffers -/

/-- The byte last written at index `a`; none when it has not been written since the hard reset. -/
def Memory.read : Memory → Nat → Option Byte
  | [], _ => none
  | (k, v) :: rest, a => if k = a then some v else Memory.read rest a

/-- Write one byte, keeping the addresses strictly rising. -/
def Memory.write : Memory → Nat → Byte → Memory
  | [], a, v => [(a, v)]
  | (k, w) :: rest, a, v =>
    if a < k then (a, v) :: (k, w) :: rest
    else if a = k then (a, v) :: rest
    else (k, w) :: Memory.write rest a v

/-- The canonical form of a buffer: addresses strictly rising. An unlisted address holds no written byte, so no entry equals
what an unlisted address reads as. -/
abbrev Memory.wf (m : Memory) : Prop := m.Pairwise (fun x y => x.1 < y.1)

/-- `IBUF[i]`: the byte last written there, else the free value of the last hard reset (R37, R72). -/
def State.ibufByte (s : State) (i : Nat) : Byte := (Memory.read s.ibuf i).getD (Config.ibufFree s.hardResets i)

/-- `OBUF[i]`: the byte last written there, else the free value of the last hard reset (R38, R72). -/
def State.obufByte (s : State) (i : Nat) : Byte := (Memory.read s.obuf i).getD (Config.obufFree s.hardResets i)

/-- `IBUF[i] <- v`. -/
def State.writeIbuf (s : State) (i : Nat) (v : Byte) : State := { s with ibuf := Memory.write s.ibuf i v }

/-- `OBUF[i] <- v`. -/
def State.writeObuf (s : State) (i : Nat) (v : Byte) : State := { s with obuf := Memory.write s.obuf i v }

/-- `{a, b, c, d}` of 00_scope.md R11, the first operand most significant. -/
def wordOf (a b c d : Byte) : Word := a ++ b ++ c ++ d

/-- Byte `j` of a word in the big-endian order of R64: `j = 0` is bits 31:24, `j = 3` is bits 7:0. -/
def byteOf (v : Word) (j : Nat) : Byte := v.extractLsb' (24 - 8 * j) 8

/-- Write four bytes, most significant first (R64). -/
def Memory.writeWord (m : Memory) (i : Nat) (v : Word) : Memory :=
  Memory.write (Memory.write (Memory.write (Memory.write m i (byteOf v 0)) (i + 1) (byteOf v 1)) (i + 2) (byteOf v 2)) (i + 3)
    (byteOf v 3)

/-- `MemRead(IBUF, i, 4)` (R64). -/
def State.ibufWord (s : State) (i : Nat) : Word :=
  wordOf (s.ibufByte i) (s.ibufByte (i + 1)) (s.ibufByte (i + 2)) (s.ibufByte (i + 3))

/-- `MemRead(OBUF, i, 4)` (R64). -/
def State.obufWord (s : State) (i : Nat) : Word :=
  wordOf (s.obufByte i) (s.obufByte (i + 1)) (s.obufByte (i + 2)) (s.obufByte (i + 3))

/-- `MemWrite(IBUF, i, 4, v)` (R64). -/
def State.writeIbufWord (s : State) (i : Nat) (v : Word) : State := { s with ibuf := Memory.writeWord s.ibuf i v }

/-- `MemWrite(OBUF, i, 4, v)` (R64). -/
def State.writeObufWord (s : State) (i : Nat) (v : Word) : State := { s with obuf := Memory.writeWord s.obuf i v }

/-! ## The engine's own accesses (R71) -/

/-- An engine read of one IBUF byte. An index with no byte is a model fault that no accepted command raises (R112). -/
def State.engineRead (s : State) (i : Nat) : Except Fault Byte :=
  if i < s.cfg.ibufBytes then .ok (s.ibufByte i) else .error .engineReadOutsideIbuf

/-- An engine write of one OBUF byte. -/
def State.engineWrite (s : State) (i : Nat) (v : Byte) : Except Fault State :=
  if i < s.cfg.obufBytes then .ok (s.writeObuf i v) else .error .engineWriteOutsideObuf

/-- An engine write of one 4-byte OBUF word, indivisible (R69). -/
def State.engineWriteWord (s : State) (i : Nat) (v : Word) : Except Fault State :=
  if i + 3 < s.cfg.obufBytes then .ok (s.writeObufWord i v) else .error .engineWriteOutsideObuf

/-! ## The bus port -/

/-- The port answers an access. -/
def State.answer (s : State) (r : Reply) : State := { s with reply := some r }

/-! ## Resets -/

/-- Every register at its reset value (10_state.md R21, 70_reset_and_hazards.md R222): a soft reset, which leaves the buffers
unchanged and stops the engine without a completion. -/
def State.softReset (s : State) : State :=
  { s with
    ie := false, busy := false, done := false, err := false, errCode := 0, opCode := 0, src := 0, dst := 0, len := 0,
    width := 0, height := 0, outCount := 0, hdrCmf := 0, hdrFlg := 0 }

/-- A hard reset (R221): the registers as after a soft reset, and every buffer byte a new free value. The host's script is
outside the block and goes on. -/
def State.hardReset (s : State) : State :=
  { s.softReset with ibuf := [], obuf := [], hardResets := s.hardResets + 1 }

/-! ## What the commands share -/

/-- The RANGE checks of R111, sums without wrap. -/
def State.outOfRange (s : State) (srcSpan dstSpan : Nat) : Bool :=
  decide (s.cfg.ibufBytes < s.src.toNat + srcSpan) || decide (s.cfg.obufBytes < s.dst.toNat + dstSpan)

/-- The accept of one command (R110): `check` is the command's `check()` (it may capture HDR), `units` its `Units(op)`. -/
def startCommand (check : State → State × Option CmdError) (units : State → Nat) (s : State) : State :=
  match check s.clearOutcome with
  | (t, some e) => t.fail e
  | (t, none) => if units t = 0 then t.completeOk else t.beginRun

/-- OUT_COUNT grows by the unit size (R115). -/
def State.advance (s : State) (unitSize : Nat) : State := { s with outCount := s.outCount + BitVec.ofNat 21 unitSize }

/-- The index of the next output unit, `E.K` (R36). -/
def State.unitIndex (s : State) (unitSize : Nat) : Nat := s.outCount.toNat / unitSize

/-- One engine step (R115): write unit `E.K`, count it, and complete in this same step if it was the last. -/
def engineStep (unitSize : Nat) (units : State → Nat) (unit : State → Nat → Except Fault State) (s : State) :
    Host.Outcome State Fault Refusal :=
  match unit s (s.unitIndex unitSize) with
  | .error f => .fault f
  | .ok t =>
    .next (if s.unitIndex unitSize + 1 = units s then (t.advance unitSize).completeOk else t.advance unitSize)

end Sys2Proof.Machine
end

