-- ==== Sys2Proof/Machine/Operands.lean ====
section
/-! DEFINITION. Every operand form: the operands of a command and the quantities derived from them (30_encoding.md R93, R94;
41_pack.md R131; 42_premul.md R151; 43_strip.md R171), and the offsets a transaction names (20_memory.md R60, R61;
30_encoding.md R101). All arithmetic is exact (00_scope.md R10). -/

namespace Sys2Proof.Machine

/-! ## Operands of commands -/

/-- `PW = (W + 31) & ~31`, the width rounded up to a multiple of 32 (R94, R131): R11's "clear bits 4:0" of `W + 31`. -/
def paddedWidth (w : BitVec 16) : Nat := (w.toNat + 31) / 32 * 32

/-- `RB = PW >> 3`, the bytes of a packed row (R94, R131). -/
def rowBytes (w : BitVec 16) : Nat := paddedWidth w / 8

/-- `N = W * H` (R94, R151). -/
def State.pixelCount (s : State) : Nat := s.width.toNat * s.height.toNat

/-- `L = LEN - 6`, used only when `LEN >= 6` (R94, R171). -/
def State.bodyLen (s : State) : Nat := s.len.toNat - 6

/-! ## Offsets of transactions -/

/-- The register file in the order of its offsets (10_state.md R21). -/
def regTable : List Reg :=
  [.id, .ctrl, .status, .op, .src, .dst, .width, .height, .len, .rowBytes, .outCount, .hdr]

/-- The register at an offset of the register file; none when the offset is not 32-bit aligned (R21, R62). -/
def regAt (off : Nat) : Option Reg := if off % 4 = 0 then regTable[off / 4]? else none

/-- The offset of a register (10_state.md R21, 30_encoding.md R101). -/
def regOffset : Reg → Offset
  | .id => 0x000
  | .ctrl => 0x004
  | .status => 0x008
  | .op => 0x00C
  | .src => 0x010
  | .dst => 0x014
  | .width => 0x018
  | .height => 0x01C
  | .len => 0x020
  | .rowBytes => 0x024
  | .outCount => 0x028
  | .hdr => 0x02C

/-- The offset of `IBUF+i` (R60, R101). DESIGN CHOICE where `0x10_0000 + i` does not fit 22 bits: the spec gives no bound on `i`
and no meaning there; the sum is reduced mod `2^22` (notes/assumptions/13.md). No step calls this. -/
def ibufOffset (i : Nat) : Offset := BitVec.ofNat 22 (0x100000 + i)

/-- The offset of `OBUF+i` (R60, R101). DESIGN CHOICE where `0x20_0000 + i` does not fit 22 bits, as for `IBUF+i`
(notes/assumptions/13.md). No step calls this. -/
def obufOffset (i : Nat) : Offset := BitVec.ofNat 22 (0x200000 + i)

/-- What an offset reaches (R61). -/
inductive Region where
  /-- The register file, 0x00 to 0x2F. -/
  | registers
  /-- The backed byte `IBUF[i]`. -/
  | ibuf (i : Nat)
  /-- The backed byte `OBUF[i]`. -/
  | obuf (i : Nat)
  /-- Nothing: an unmapped offset, the unbacked top of a buffer window included. -/
  | unmapped
  deriving DecidableEq, Repr

/-- The map of block offsets (R61). -/
def locate (p : Params) (off : Offset) : Region :=
  if off.toNat < 0x30 then .registers
  else if 0x100000 ≤ off.toNat ∧ off.toNat < 0x100000 + p.ibufBytes then .ibuf (off.toNat - 0x100000)
  else if 0x200000 ≤ off.toNat ∧ off.toNat < 0x200000 + p.obufBytes then .obuf (off.toNat - 0x200000)
  else .unmapped

/-- The block offset that bus address `addr` selects (R60: `A - BASE`); none when the address is not the block's. A HOSTTX
record already holds an offset, so no step calls this (notes/assumptions/10.md). -/
def selectOffset (p : Params) (addr : Nat) : Option Offset :=
  if p.base ≤ addr ∧ addr < p.base + 0x400000 then some (BitVec.ofNat 22 (addr - p.base)) else none

end Sys2Proof.Machine
end

