-- ==== Sys2Proof/Machine/Pack.lean ====
section
/-! DEFINITION. PACK, the monochrome bitmap packer (41_pack.md): spans, checks, the unit, the whole-operation function, and
the meaning of the instruction. -/

namespace Sys2Proof.Machine

/-- `SrcSpan(1) = W * H`: only real pixels (R132). -/
def packSrcSpan (s : State) : Nat := s.pixelCount

/-- `DstSpan(1) = H * RB` (R132). -/
def packDstSpan (s : State) : Nat := s.height.toNat * rowBytes s.width

/-- `Units(1) = H * RB`, one output byte a unit (R132). -/
def packUnits (s : State) : Nat := s.height.toNat * rowBytes s.width

/-- `E.US` of PACK (R115, R132). -/
def packUnitSize : Nat := 1

/-- The checks of PACK, in the order of R111: ALIGN, then RANGE (R136). -/
def packCheck (s : State) : State × Option CmdError :=
  if s.dst.toNat % 4 ≠ 0 then (s, some .align)
  else if s.outOfRange (packSrcSpan s) (packDstSpan s) then (s, some .range)
  else (s, none)

/-- The index in IBUF of pixel `(x, y)` (R130). -/
def pixelIndex (s : State) (x y : Nat) : Nat := s.src.toNat + y * s.width.toNat + x

/-- One bit of the packed row: whether pixel `(x, y)` is truthy. A padding column reads no pixel and is 0 (R133, R135). -/
def packBit (s : State) (x y : Nat) : Except Fault Bool :=
  if x < s.width.toNat then (s.engineRead (pixelIndex s x y)).map (fun p => p != 0)
  else .ok false

/-- The loop of R133 over the bit positions still to do: pixel `xb * 8 + xBit` sets bit `7 - xBit`. -/
def packBits (s : State) (y xb : Nat) : List Nat → Byte → Except Fault Byte
  | [], v => .ok v
  | xBit :: rest, v =>
    match packBit s (xb * 8 + xBit) y with
    | .error f => .error f
    | .ok true => packBits s y xb rest (v ||| (1#8 <<< (7 - xBit)))
    | .ok false => packBits s y xb rest v

/-- `Unit(1, k)`, the PACK engine step for output byte `k` (R133). -/
def packUnit (s : State) (k : Nat) : Except Fault State :=
  match packBits s (k / rowBytes s.width) (k % rowBytes s.width) [0, 1, 2, 3, 4, 5, 6, 7] 0 with
  | .error f => .error f
  | .ok v => s.engineWrite (s.dst.toNat + k) v

/-- `Out(1)[j]` (R134): the sum of `2^(7 - xBit)` over the truthy pixels of the byte's 8 columns that are inside the row. -/
def packOut (s : State) (j : Nat) : Byte :=
  BitVec.ofNat 8 (((List.range 8).map fun xBit =>
    if 8 * (j % rowBytes s.width) + xBit < s.width.toNat ∧
        s.ibufByte (pixelIndex s (8 * (j % rowBytes s.width) + xBit) (j / rowBytes s.width)) ≠ 0
    then 2 ^ (7 - xBit) else 0).sum)

/-- PACK. While the block is idle the command is accepted (R110); while it is busy the engine writes the next output byte
(R115, R133). -/
def execPack (s : State) : Host.Outcome State Fault Refusal :=
  if s.busy then engineStep packUnitSize packUnits packUnit s
  else .next (startCommand packCheck packUnits s)

end Sys2Proof.Machine
end

