-- ==== Sys2Proof/Machine/Premul.lean ====
section
/-! DEFINITION. PREMUL, the premultiplied-RGBA word formatter (42_premul.md): spans, checks, the scaling function, the unit,
the whole-operation function, and the meaning of the instruction. -/

namespace Sys2Proof.Machine

/-- `SrcSpan(2) = 4 * N` (R152). -/
def premulSrcSpan (s : State) : Nat := 4 * s.pixelCount

/-- `DstSpan(2) = 4 * N` (R152). -/
def premulDstSpan (s : State) : Nat := 4 * s.pixelCount

/-- `Units(2) = N`, one 4-byte word a unit (R152). -/
def premulUnits (s : State) : Nat := s.pixelCount

/-- `E.US` of PREMUL (R115, R152). -/
def premulUnitSize : Nat := 4

/-- The checks of PREMUL, in the order of R111: ALIGN, then RANGE (R158). -/
def premulCheck (s : State) : State × Option CmdError :=
  if s.src.toNat % 4 ≠ 0 ∨ s.dst.toNat % 4 ≠ 0 then (s, some .align)
  else if s.outOfRange (premulSrcSpan s) (premulDstSpan s) then (s, some .range)
  else (s, none)

/-- `scale(c, a) = (c * a) div 255`: the exact product first, then the floor division (R153, 90_conflicts.md C6). -/
def scale (c a : Byte) : Byte := BitVec.ofNat 8 (c.toNat * a.toNat / 255)

/-- The premultiplied word `{a, r', g', b'}` of a pixel (R154, R157). -/
def premulWord (r g b a : Byte) : Word := wordOf a (scale r a) (scale g a) (scale b a)

/-- `Unit(2, i)`, the PREMUL engine step for pixel `i` (R154). -/
def premulUnit (s : State) (i : Nat) : Except Fault State := do
  let r ← s.engineRead (s.src.toNat + 4 * i + 0)
  let g ← s.engineRead (s.src.toNat + 4 * i + 1)
  let b ← s.engineRead (s.src.toNat + 4 * i + 2)
  let a ← s.engineRead (s.src.toNat + 4 * i + 3)
  s.engineWriteWord (s.dst.toNat + 4 * i) (premulWord r g b a)

/-- `Out(2)[j]` (R155): of each output word, byte 0 is the pixel's alpha and bytes 1, 2, 3 its scaled red, green, blue. -/
def premulOut (s : State) (j : Nat) : Byte :=
  let base := s.src.toNat + 4 * (j / 4)
  match j % 4 with
  | 0 => s.ibufByte (base + 3)
  | lane + 1 => scale (s.ibufByte (base + lane)) (s.ibufByte (base + 3))

/-- PREMUL. While the block is idle the command is accepted (R110); while it is busy the engine writes the next output word
(R115, R154). -/
def execPremul (s : State) : Host.Outcome State Fault Refusal :=
  if s.busy then engineStep premulUnitSize premulUnits premulUnit s
  else .next (startCommand premulCheck premulUnits s)

end Sys2Proof.Machine
end

