-- ==== Sys2Proof/Machine/Strip.lean ====
section
/-! DEFINITION. STRIP, the raw-deflate container stripper (43_strip.md): spans, checks, the header capture, the unit, the
whole-operation function, and the meaning of the instruction. -/

namespace Sys2Proof.Machine

/-- `SrcSpan(3) = LEN` (R172). -/
def stripSrcSpan (s : State) : Nat := s.len.toNat

/-- `DstSpan(3) = LEN - 6`, used only when `LEN >= 6` (R172). -/
def stripDstSpan (s : State) : Nat := s.bodyLen

/-- `Units(3) = LEN - 6`, one byte a unit (R172). -/
def stripUnits (s : State) : Nat := s.bodyLen

/-- `E.US` of STRIP (R115, R172). -/
def stripUnitSize : Nat := 1

/-- `capture_hdr()` (R173). -/
def State.captureHdr (s : State) : State :=
  { s with hdrCmf := s.ibufByte s.src.toNat, hdrFlg := s.ibufByte (s.src.toNat + 1) }

/-- The checks of STRIP, in the order of R111 and R172: SHORT, RANGE, then the header capture, METHOD and FDICT. Nothing else of
the container is validated (R176). -/
def stripCheck (s : State) : State × Option CmdError :=
  if s.len.toNat < 6 then (s, some .short)
  else if s.outOfRange (stripSrcSpan s) (stripDstSpan s) then (s, some .range)
  else if s.ibufByte s.src.toNat &&& 0x0F#8 ≠ 8#8 then (s.captureHdr, some .method)
  else if s.ibufByte (s.src.toNat + 1) &&& 0x20#8 ≠ 0#8 then (s.captureHdr, some .fdict)
  else (s.captureHdr, none)

/-- `Unit(3, i)`, the STRIP engine step for body byte `i` (R174). -/
def stripUnit (s : State) (i : Nat) : Except Fault State := do
  let v ← s.engineRead (s.src.toNat + 2 + i)
  s.engineWrite (s.dst.toNat + i) v

/-- `Out(3)[j]` (R175). -/
def stripOut (s : State) (j : Nat) : Byte := s.ibufByte (s.src.toNat + 2 + j)

/-- STRIP. While the block is idle the command is accepted (R110); while it is busy the engine copies the next body byte
(R115, R174). -/
def execStrip (s : State) : Host.Outcome State Fault Refusal :=
  if s.busy then engineStep stripUnitSize stripUnits stripUnit s
  else .next (startCommand stripCheck stripUnits s)

end Sys2Proof.Machine
end

