-- ==== Sys2Proof/Machine/Commands.lean ====
section
/-! DEFINITION. The commands together: the table of 40_command.md R111 by operation, and the accept of whatever OP selects
(R110). -/

namespace Sys2Proof.Machine

/-- `SrcSpan(op)` (R111). -/
def srcSpan : Command → State → Nat
  | .pack, s => packSrcSpan s
  | .premul, s => premulSrcSpan s
  | .strip, s => stripSrcSpan s

/-- `DstSpan(op)` (R111). -/
def dstSpan : Command → State → Nat
  | .pack, s => packDstSpan s
  | .premul, s => premulDstSpan s
  | .strip, s => stripDstSpan s

/-- `Units(op)` (R111). -/
def units : Command → State → Nat
  | .pack, s => packUnits s
  | .premul, s => premulUnits s
  | .strip, s => stripUnits s

/-- `E.US` (R111, R115). -/
def unitSize : Command → Nat
  | .pack => packUnitSize
  | .premul => premulUnitSize
  | .strip => stripUnitSize

/-- `Out(op)[j]`, byte `j` of the command's whole output (R118, R134, R155, R175). -/
def outByte : Command → State → Nat → Byte
  | .pack, s, j => packOut s j
  | .premul, s, j => premulOut s j
  | .strip, s, j => stripOut s j

/-- `accept()` (R110): the checks of R111 begin with BADOP for a reserved OP.CODE; the others are the command's own. -/
def State.accept (s : State) : State :=
  match decodeCode s.opCode with
  | .error _ => s.clearOutcome.fail .badop
  | .ok .pack => startCommand packCheck packUnits s
  | .ok .premul => startCommand premulCheck premulUnits s
  | .ok .strip => startCommand stripCheck stripUnits s

end Sys2Proof.Machine
end

