-- ==== Sys2Proof/Machine/Registers.lean ====
section
/-! DEFINITION. The register file: what a good read of each register returns and what a good write of each does (10_state.md
R21 to R34, R41; 40_command.md R119). -/

namespace Sys2Proof.Machine

/-- ID, `0x5356_0001` (R22). -/
def idWord : Word := 0x53560001

/-- A register read (R22 to R33). Reserved bits read 0 (R41), START and SRST read 0 (R23). -/
def readReg (s : State) : Reg → Word
  | .id => idWord
  | .ctrl => 0#23 ++ BitVec.ofBool s.ie ++ 0#8
  | .status => s.statusWord
  | .op => s.opCode.setWidth 32
  | .src => s.src
  | .dst => s.dst
  | .width => s.width.setWidth 32
  | .height => s.height.setWidth 32
  | .len => s.len
  | .rowBytes => BitVec.ofNat 32 (rowBytes s.width)
  | .outCount => s.outCount.setWidth 32
  | .hdr => 0#16 ++ s.hdrCmf ++ s.hdrFlg

/-- A write of CTRL (R23): SRST wins over START and IE; a START while BUSY is refused (none) with no field changed; else IE is
written and then START accepts, which sees the new IE. -/
def writeCtrl (s : State) (v : Word) : Option State :=
  if v.getLsbD 1 then some s.softReset
  else if v.getLsbD 0 && s.busy then none
  else if v.getLsbD 0 then some ({ s with ie := v.getLsbD 8 }.accept)
  else some { s with ie := v.getLsbD 8 }

/-- A write of an operand register: while BUSY it is refused (R119). -/
def whenIdle (s : State) (t : State) : Option State := if s.busy then none else some t

/-- A register write; none when it gets SLVERR. Values are masked to the field, reserved bits and read-only registers ignore
the write (R21, R24 to R30, R41, R119). -/
def writeReg (s : State) (r : Reg) (v : Word) : Option State :=
  match r with
  | .id => some s
  | .ctrl => writeCtrl s v
  | .status => some (if v.getLsbD 1 then s.clearDone else s)
  | .op => whenIdle s { s with opCode := v.setWidth 4 }
  | .src => whenIdle s { s with src := v }
  | .dst => whenIdle s { s with dst := v }
  | .width => whenIdle s { s with width := v.setWidth 16 }
  | .height => whenIdle s { s with height := v.setWidth 16 }
  | .len => whenIdle s { s with len := v }
  | .rowBytes => some s
  | .outCount => some s
  | .hdr => some s

end Sys2Proof.Machine
end

