-- ==== Sys2Proof/Machine/HostReads.lean ====
section
/-! DEFINITION. The host's reads: rd8, rd16, rd32 (20_memory.md R62 to R68; 60_exceptions.md R197). A read changes nothing but
the port's response (R70). -/

namespace Sys2Proof.Machine

/-- What an 8-bit read answers (R62, R63, R67, R68). -/
def readReply8 (s : State) (off : Offset) : Reply :=
  match locate s.cfg off with
  | .registers => .slverr
  | .ibuf i => if s.busy then .slverr else .data ((s.ibufByte i).setWidth 32)
  | .obuf i => if s.busy then .slverr else .data ((s.obufByte i).setWidth 32)
  | .unmapped => .slverr

/-- What a 32-bit read answers (R62 to R65, R67, R68). -/
def readReply32 (s : State) (off : Offset) : Reply :=
  match locate s.cfg off with
  | .registers =>
    match regAt off.toNat with
    | some r => .data (readReg s r)
    | none => .slverr
  | .ibuf i => if s.busy || decide (i % 4 ≠ 0) then .slverr else .data (s.ibufWord i)
  | .obuf i => if s.busy || decide (i % 4 ≠ 0) then .slverr else .data (s.obufWord i)
  | .unmapped => .slverr

/-- rd8. -/
def execRd8 (off : Offset) (s : State) : Host.Outcome State Fault Refusal := .next (s.answer (readReply8 s off))

/-- rd16: SLVERR at every offset, the register file (R62), the buffers (R63) and what is unmapped (R67). -/
def execRd16 (_off : Offset) (s : State) : Host.Outcome State Fault Refusal := .next (s.answer .slverr)

/-- rd32. -/
def execRd32 (off : Offset) (s : State) : Host.Outcome State Fault Refusal := .next (s.answer (readReply32 s off))

end Sys2Proof.Machine
end

