-- ==== Sys2Proof/Machine/HostWrites.lean ====
section
/-! DEFINITION. The host's writes: wr8, wr16, wr32 (20_memory.md R62 to R68; 60_exceptions.md R197). -/

namespace Sys2Proof.Machine

/-- The port's answer to a write: OKAY with the effect, or SLVERR with none (R66). -/
def State.answerWrite (s : State) : Option State → State
  | some t => t.answer .done
  | none => s.answer .slverr

/-- The effect of an 8-bit write of `v[7:0]`; none is SLVERR (R62, R63, R67, R68). -/
def writeEffect8 (s : State) (off : Offset) (v : Word) : Option State :=
  match locate s.cfg off with
  | .registers => none
  | .ibuf i => if s.busy then none else some (s.writeIbuf i (v.setWidth 8))
  | .obuf i => if s.busy then none else some (s.writeObuf i (v.setWidth 8))
  | .unmapped => none

/-- The effect of a 32-bit write; none is SLVERR (R62 to R65, R67, R68). -/
def writeEffect32 (s : State) (off : Offset) (v : Word) : Option State :=
  match locate s.cfg off with
  | .registers =>
    match regAt off.toNat with
    | some r => writeReg s r v
    | none => none
  | .ibuf i => if s.busy || decide (i % 4 ≠ 0) then none else some (s.writeIbufWord i v)
  | .obuf i => if s.busy || decide (i % 4 ≠ 0) then none else some (s.writeObufWord i v)
  | .unmapped => none

/-- wr8. -/
def execWr8 (off : Offset) (data : Word) (s : State) : Host.Outcome State Fault Refusal :=
  .next (s.answerWrite (writeEffect8 s off data))

/-- wr16: SLVERR at every offset (R62, R63, R67). -/
def execWr16 (_off : Offset) (_data : Word) (s : State) : Host.Outcome State Fault Refusal := .next (s.answer .slverr)

/-- wr32. -/
def execWr32 (off : Offset) (data : Word) (s : State) : Host.Outcome State Fault Refusal :=
  .next (s.answerWrite (writeEffect32 s off data))

end Sys2Proof.Machine
end

