-- ==== Sys2Proof/Machine/Dispatch.lean ====
section
/-! DEFINITION. One arm per instruction, each a direct call of its meaning. -/

namespace Sys2Proof.Machine

def exec (i : Instr) (s : State) : Host.Outcome State Fault Refusal :=
  match i with
  | .pack => Sys2Proof.Machine.execPack s
  | .premul => Sys2Proof.Machine.execPremul s
  | .strip => Sys2Proof.Machine.execStrip s
  | .rd8 off => Sys2Proof.Machine.execRd8 off s
  | .rd16 off => Sys2Proof.Machine.execRd16 off s
  | .rd32 off => Sys2Proof.Machine.execRd32 off s
  | .wr8 off data => Sys2Proof.Machine.execWr8 off data s
  | .wr16 off data => Sys2Proof.Machine.execWr16 off data s
  | .wr32 off data => Sys2Proof.Machine.execWr32 off data s

end Sys2Proof.Machine
end

