-- ==== Sys2Proof/Machine/Turns.lean ====
section
/-! DEFINITION. What each turn of the schedule does: the host takes its next script line (30_encoding.md R98, R102), the engine
its next step (40_command.md R115), and the script's symbols and pseudo-instructions (R100, R101). -/

namespace Sys2Proof.Machine

/-! ## The script's notation -/

/-- `rd8 OFF -> tN` (R98). -/
def rd8At (off : Offset) (t : Nat) : Stmt := .tx (hosttxRecord false 0b000#3 off 0) (some t)

/-- `rd16 OFF -> tN` (R98). -/
def rd16At (off : Offset) (t : Nat) : Stmt := .tx (hosttxRecord false 0b001#3 off 0) (some t)

/-- `rd32 OFF -> tN` (R98). -/
def rd32At (off : Offset) (t : Nat) : Stmt := .tx (hosttxRecord false 0b010#3 off 0) (some t)

/-- `wr8 OFF, VAL` (R98). -/
def wr8At (off : Offset) (v : Word) : Stmt := .tx (hosttxRecord true 0b000#3 off v) none

/-- `wr16 OFF, VAL` (R98). -/
def wr16At (off : Offset) (v : Word) : Stmt := .tx (hosttxRecord true 0b001#3 off v) none

/-- `wr32 OFF, VAL` (R98). -/
def wr32At (off : Offset) (v : Word) : Stmt := .tx (hosttxRecord true 0b010#3 off v) none

/-- The start word `0x1 | (ie << 8)` of CTRL (R92, R100). -/
def startWord (ie : Bool) : Word := if ie then 0x101 else 0x001

/-- The expansion of a pseudo-instruction (R100). -/
def expand : Pseudo → List Stmt
  | .pack dst src w h ie =>
    [wr32At (regOffset .src) src, wr32At (regOffset .dst) dst, wr32At (regOffset .width) w, wr32At (regOffset .height) h,
      wr32At (regOffset .op) 1, wr32At (regOffset .ctrl) (startWord ie)]
  | .premul dst src w h ie =>
    [wr32At (regOffset .src) src, wr32At (regOffset .dst) dst, wr32At (regOffset .width) w, wr32At (regOffset .height) h,
      wr32At (regOffset .op) 2, wr32At (regOffset .ctrl) (startWord ie)]
  | .strip dst src len ie =>
    [wr32At (regOffset .src) src, wr32At (regOffset .dst) dst, wr32At (regOffset .len) len, wr32At (regOffset .op) 3,
      wr32At (regOffset .ctrl) (startWord ie)]
  | .waitDone t l => [.label l, rd32At (regOffset .status) t, .bz t 0x2 l]
  | .ack => [wr32At (regOffset .status) 0x2]
  | .srst => [wr32At (regOffset .ctrl) 0x2]

/-! ## The host's turn -/

/-- The line of a label: the first that carries it. -/
def findLabel : List Stmt → Nat → Option Nat
  | [], _ => none
  | line :: rest, l => if line = .label l then some 0 else (findLabel rest l).map (· + 1)

/-- The read data of a response: an SLVERR "stores 0 in tN for a read" (R66, R98). -/
def Reply.rdata : Reply → Word
  | .data v => v
  | .done => 0
  | .slverr => 0

/-- The place of an access's read data: a read names a temporary t0 to t7, a write names none (R98). -/
def destOk (i : Instr) (dest : Option Nat) : Bool :=
  match i, dest with
  | .rd8 _, some t => decide (t < 8)
  | .rd16 _, some t => decide (t < 8)
  | .rd32 _, some t => decide (t < 8)
  | .wr8 _ _, none => true
  | .wr16 _ _, none => true
  | .wr32 _ _, none => true
  | _, _ => false

/-- `tN <- v`. -/
def setTemp (temps : Vector Word 8) (t : Nat) (v : Word) : Vector Word 8 :=
  if h : t < 8 then temps.set t v else temps

/-- After an access the host records its response in the trace, stores a read's data in its temporary and goes to the next
line (R98, R198). -/
def State.retire (s : State) (dest : Option Nat) : State :=
  match s.reply with
  | none => { s with pos := s.pos + 1 }
  | some r =>
    { s with
      trace := s.trace ++ [(s.pos, r)]
      temps := match dest with
        | some t => setTemp s.temps t r.rdata
        | none => s.temps
      pos := s.pos + 1 }

/-- A script branch on `tN & MASK` (R98): taken when that is zero and `onZero`, or nonzero and not `onZero`. A temporary other
than t0 to t7, and a label the script does not have, are no valid script (93_implementation_defined.md 1.3). -/
def branch (s : State) (t : Nat) (mask : Word) (l : Nat) (onZero : Bool) : Host.Outcome State Fault Refusal :=
  if h : t < 8 then
    match findLabel s.script l with
    | none => .refused .invalidScript
    | some line =>
      .next { s with pos := if decide (s.temps[t] &&& mask = 0) = onZero then line else s.pos + 1 }
  else .refused .invalidScript

/-- The host's turn: its next script line. At `halt`, and past the last line, the host does nothing more. Script-only lines make
no bus access (R98). -/
def hostTurn (s : State) : Host.Outcome State Fault Refusal :=
  match s.script[s.pos]? with
  | none => .next s
  | some .halt => .next s
  | some (.label _) => .next { s with pos := s.pos + 1 }
  | some (.bz t mask l) => branch s t mask l true
  | some (.bnz t mask l) => branch s t mask l false
  | some (.tx r dest) =>
    match decodeTx r with
    | .error e => .refused (.invalidTransaction e)
    | .ok i =>
      if destOk i dest then
        match exec i s with
        | .next t => .next (t.retire dest)
        | .fault f => .fault f
        | .refused f => .refused f
      else .refused .invalidScript

/-! ## The engine's turn -/

/-- The engine's turn: enabled exactly while BUSY = 1 (R115), it runs the command that OP.CODE holds (R36). An idle block takes
no engine step and keeps all its state (60_exceptions.md R206). -/
def engineTurn (s : State) : Host.Outcome State Fault Refusal :=
  if s.busy then
    match decodeCode s.opCode with
    | .ok c => exec c.instr s
    | .error _ => .fault .engineWithoutCommand
  else .next s

/-! ## One turn -/

/-- A turn of the schedule. -/
def takeTurn (turn : Turn) (s : State) : Host.Outcome State Fault Refusal :=
  match turn with
  | .host => hostTurn s
  | .engine => engineTurn s
  | .hardReset => .next s.hardReset

/-- The turn when the schedule has run out: the engine's while BUSY (the fairness of R117), else the host's. -/
def defaultTurn (s : State) : Turn := if s.busy then .engine else .host

/-! ## Placing an instruction where it is fetched -/

/-- The script line of a HOSTTX record: a read's data goes to t0. -/
def lineOf (r : Record) : Stmt := .tx r (if r.isWrite then none else some 0)

/-- `s` with the bits of a table row where the next step fetches them. A transaction is the host's next script line. A command
is the value in OP.CODE, of an idle block, when the host's next script line is a START (R90). -/
def placeWord (s : State) (nbits w : Nat) : State :=
  if nbits ≤ 32 then
    { s with
      opCode := BitVec.ofNat 4 w
      busy := false
      script := [wr32At (regOffset .ctrl) (startWord s.ie)]
      pos := 0
      schedule := .host :: s.schedule }
  else
    { s with script := [lineOf (BitVec.ofNat 64 w)], pos := 0, schedule := .host :: s.schedule }

end Sys2Proof.Machine
end

