-- ==== Sys2Proof/Machine/Step.lean ====
section
/-! DEFINITION. One step of the machine: the next turn of the schedule (20_memory.md R72). -/

namespace Sys2Proof.Machine

/-- One step: the turn the schedule names next, or the default turn when it names none. -/
def step (s : State) : Host.Outcome State Fault Refusal :=
  match s.schedule with
  | [] => takeTurn (defaultTurn s) s
  | turn :: rest => takeTurn turn { s with schedule := rest }

/-- `s` with the instruction of a table row stored where `step` fetches its next instruction. -/
def State.withFetchWord (s : State) (nbits w : Nat) : State := placeWord s nbits w

end Sys2Proof.Machine
end

