-- ==== Sys2Proof/Safety.lean ====
section
/-! DEFINITION. What counts as a sound state and a sound run: the invariant every step keeps, what it means for a command to be
in flight, and the end of a run (40_command.md R112, R115, R121; 60_exceptions.md R190, R198). -/

namespace Sys2Proof.Machine

/-- What the checks of R111 establish for a command that passes them, apart from STRIP's header bytes. -/
structure CommandFits (c : Command) (s : State) : Prop where
  /-- ALIGN (PACK, PREMUL) and SHORT (STRIP) passed. -/
  shape : match c with
    | .pack => s.dst.toNat % 4 = 0
    | .premul => s.src.toNat % 4 = 0 ∧ s.dst.toNat % 4 = 0
    | .strip => 6 ≤ s.len.toNat
  /-- RANGE passed for the source span. -/
  srcFits : s.src.toNat + srcSpan c s ≤ s.cfg.ibufBytes
  /-- RANGE passed for the destination span. -/
  dstFits : s.dst.toNat + dstSpan c s ≤ s.cfg.obufBytes

/-- Command `c` is running (R114, R115): BUSY, selected by OP.CODE, its checks passed, with whole units written and at least one
left to write. -/
structure InFlight (c : Command) (s : State) : Prop where
  busy : s.busy = true
  notDone : s.done = false
  noError : s.err = false
  code : decodeCode s.opCode = .ok c
  fits : CommandFits c s
  /-- OUT_COUNT is a whole number of units. -/
  whole : s.outCount.toNat % unitSize c = 0
  /-- The next unit is one of the command's. -/
  more : s.unitIndex (unitSize c) < units c s

/-- The invariant of the machine: the parameters meet 00_scope.md R7; the buffers are canonical and inside their sizes;
OUT_COUNT is at most OBUF_BYTES (R32, R112); ERRCODE is a code of R191 and is 0 exactly when ERR is 0 (R24); and BUSY means
that a command is in flight (R114, R115). -/
structure State.Inv (s : State) : Prop where
  params : s.cfg.valid = true
  ibufWf : Memory.wf s.ibuf
  obufWf : Memory.wf s.obuf
  ibufBacked : ∀ c ∈ s.ibuf, c.1 < s.cfg.ibufBytes
  obufBacked : ∀ c ∈ s.obuf, c.1 < s.cfg.obufBytes
  countFits : s.outCount.toNat ≤ s.cfg.obufBytes
  codeKnown : s.errCode.toNat ≤ 6
  codeOfErr : s.err = true ↔ s.errCode ≠ 0
  running : s.busy = true → ∃ c, InFlight c s

/-- A host access, whatever its encoding: its size in bits, its offset, and its data when it is a write. -/
structure HostAccess where
  size : Nat
  off : Offset
  write : Option Word
  deriving DecidableEq, Repr

/-- The host access an instruction makes; none for a command. -/
def hostAccess : Instr → Option HostAccess
  | .pack => none
  | .premul => none
  | .strip => none
  | .rd8 off => some ⟨8, off, none⟩
  | .rd16 off => some ⟨16, off, none⟩
  | .rd32 off => some ⟨32, off, none⟩
  | .wr8 off v => some ⟨8, off, some v⟩
  | .wr16 off v => some ⟨16, off, some v⟩
  | .wr32 off v => some ⟨32, off, some v⟩

/-- The offset lies in the register file (R61). -/
def InRegisters (off : Offset) : Prop := off.toNat < 0x30

/-- The offset lies in the backed part of a buffer window (R61). -/
def InBuffers (p : Params) (off : Offset) : Prop :=
  (0x100000 ≤ off.toNat ∧ off.toNat < 0x100000 + p.ibufBytes) ∨ (0x200000 ≤ off.toNat ∧ off.toNat < 0x200000 + p.obufBytes)

/-- The complete list of causes of SLVERR, one line per row of 60_exceptions.md R197. -/
inductive BusErrorCause (s : State) (a : HostAccess) : Prop where
  | unmapped (h : ¬InRegisters a.off ∧ ¬InBuffers s.cfg a.off)
  | registerSize (h : InRegisters a.off ∧ (a.size = 8 ∨ a.size = 16))
  | registerMisaligned (h : InRegisters a.off ∧ a.size = 32 ∧ a.off.toNat % 4 ≠ 0)
  | bufferSize (h : InBuffers s.cfg a.off ∧ a.size = 16)
  | bufferMisaligned (h : InBuffers s.cfg a.off ∧ a.size = 32 ∧ a.off.toNat % 4 ≠ 0)
  | bufferBusy (h : InBuffers s.cfg a.off ∧ s.busy = true)
  | operandBusy (h : s.busy = true ∧ a.write.isSome = true ∧
      (a.off.toNat = 0x00C ∨ a.off.toNat = 0x010 ∨ a.off.toNat = 0x014 ∨ a.off.toNat = 0x018 ∨ a.off.toNat = 0x01C ∨
        a.off.toNat = 0x020))
  | startBusy (v : Word) (h : s.busy = true ∧ a.write = some v ∧ a.off.toNat = 0x004 ∧ v.getLsbD 0 = true ∧
      v.getLsbD 1 = false)

/-- A write of CTRL that asks to start (R110): bit 0 is 1 and bit 1 is 0. -/
def IsStart (v : Word) : Prop := v.getLsbD 0 = true ∧ v.getLsbD 1 = false

/-- The host has the next turn, with `rest` to follow: the schedule names it, or the schedule has run out and the block is idle
(20_memory.md R72, notes/assumptions/3.md). -/
def HostHasTurn (s : State) (rest : List Turn) : Prop :=
  s.schedule = .host :: rest ∨ (s.schedule = [] ∧ rest = [] ∧ s.busy = false)

/-- The script has reached `halt` (R121). -/
def State.runEnded (s : State) : Bool := s.script[s.pos]? == some .halt

/-- At the end of a run a command is still in flight: no claim may read OBUF or OUT_COUNT as final (R121). -/
def State.commandLeft (s : State) : Bool := s.runEnded && s.busy

/-- The run is faulty: its trace records an SLVERR at a line where the script did not expect one (R121, R198). `expected` are
the lines where the script expects it. -/
def State.runFaulty (expected : List Nat) (s : State) : Bool :=
  s.trace.any fun entry => entry.2 == .slverr && !expected.contains entry.1

/-- The state after `n` steps, if none of them stops (Host.Core.run). -/
def stepsTo (n : Nat) (s t : State) : Prop := Host.Core.run Sys2Proof.core n s = .next t

/-- The first `n` steps from `s` stay inside the running command: BUSY is 1 before each of them. -/
def busyFor (n : Nat) (s : State) : Prop := ∀ m < n, ∀ t, stepsTo m s t → t.busy = true

end Sys2Proof.Machine
end

