-- ==== Sys2Proof/Certificates/Slice0/Obligations.lean ====
section
/-! DEFINITION. The statements about the machine. Each docstring names the rules of spec/ it formalises. -/

open Sys2Proof Sys2Proof.Machine

/-! ## Encoding -/

/-- R99's worked example and one word of every row, written out from the spec's encodings (R95, R99). -/
def Obligations.SampleWordsDecode : Prop :=
  decode (.hosttx 0xA000000400000101#64) = .ok (.wr32 0x004#22 0x101#32) ∧
  decode (.hosttx 0x9020000000000000#64) = .ok (.wr16 0x200000#22 0#32) ∧
  decode (.hosttx 0x80100009000000FF#64) = .ok (.wr8 0x100009#22 0xFF#32) ∧
  decode (.hosttx 0x2020004000000000#64) = .ok (.rd32 0x200040#22) ∧
  decode (.hosttx 0x1000000800000000#64) = .ok (.rd16 0x008#22) ∧
  decode (.hosttx 0x0020004500000000#64) = .ok (.rd8 0x200045#22) ∧
  decode (.cmd 0b0001#4) = .ok .pack ∧ decode (.cmd 0b0010#4) = .ok .premul ∧ decode (.cmd 0b0011#4) = .ok .strip

/-- Every instruction, with every operand at every value, decodes from its encoding (R95, R99). -/
def Obligations.DecodeOfEncode : Prop := ∀ i : Instr, decode (encode i) = .ok i

/-- No two encodings decode to one instruction: bits that decode are the instruction's own encoding, so no bit is dropped
(R95, R99). -/
def Obligations.EncodeOfDecode : Prop := ∀ (e : Encoding) (i : Instr), decode e = .ok i → encode i = e

/-- The decoder accepts exactly the records that R99's match and mask columns and its DATA rule allow (R96, R99). -/
def Obligations.DecoderAcceptsExactlyValidRecords : Prop :=
  ∀ r : Record, (∃ i, decodeTx r = .ok i) ↔ r.wf = true

/-- The command codes are 1, 2 and 3, and every other value is reserved (R95). -/
def Obligations.CommandCodes : Prop :=
  ∀ code : BitVec 4,
    (decodeCode code = .ok .pack ↔ code.toNat = 1) ∧ (decodeCode code = .ok .premul ↔ code.toNat = 2) ∧
    (decodeCode code = .ok .strip ↔ code.toNat = 3) ∧
    (decodeCode code = .error (.reservedCommand code) ↔ code.toNat = 0 ∨ 4 ≤ code.toNat)

/-! ## Reset -/

/-- The state after reset meets the table of R221, whatever the parameters. (That no script is loaded, no turn is scheduled and
no access has been answered is the model's choice, log entries 3, 4 and 8: nothing is said of it here.) -/
def Obligations.ResetStateMeetsTheTable : Prop :=
  ∀ cfg : Params,
    (∀ r : Reg, readReg (State.resetWith cfg) r = if r = .id then 0x53560001#32 else 0#32) ∧
    (State.resetWith cfg).irq = false ∧
    (∀ i, (State.resetWith cfg).ibufByte i = Config.ibufFree 0 i) ∧
    (∀ i, (State.resetWith cfg).obufByte i = Config.obufFree 0 i)

/-- R221: a hard reset, in any state, sets every register to its reset value and makes every buffer byte a new free value. The
host's side is outside the block and keeps its state (log entry 9). -/
def Obligations.HardResetSetsEveryRegister : Prop :=
  ∀ (s : State) (rest : List Turn), s.schedule = .hardReset :: rest →
    ∃ t, step s = .next t ∧
      (∀ r : Reg, readReg t r = if r = .id then 0x53560001#32 else 0#32) ∧ t.irq = false ∧
      (∀ i, t.ibufByte i = Config.ibufFree (s.hardResets + 1) i) ∧
      (∀ i, t.obufByte i = Config.obufFree (s.hardResets + 1) i) ∧
      t.cfg = s.cfg ∧ t.reply = s.reply ∧ t.script = s.script ∧ t.pos = s.pos ∧ t.temps = s.temps ∧ t.trace = s.trace ∧
      t.schedule = rest

/-- R222: a soft reset, even while BUSY, sets every register as a hard reset does, leaves every buffer byte unchanged and sets
no DONE. -/
def Obligations.SoftResetKeepsTheBuffers : Prop :=
  ∀ (s : State) (v : Word), v.getLsbD 1 = true →
    ∃ t, exec (.wr32 0x004#22 v) s = .next t ∧ t.reply = some .done ∧
      (∀ r : Reg, readReg t r = if r = .id then 0x53560001#32 else 0#32) ∧ t.irq = false ∧
      (∀ i, t.ibufByte i = s.ibufByte i) ∧ (∀ i, t.obufByte i = s.obufByte i) ∧
      t.cfg = s.cfg ∧ t.hardResets = s.hardResets ∧ t.script = s.script ∧ t.pos = s.pos ∧ t.temps = s.temps ∧
      t.trace = s.trace ∧ t.schedule = s.schedule

/-! ## The step -/

/-- When the host has the turn and its script line is a valid transaction, the step runs that instruction, which completes, and
then records the response (R98, R72); what recording it does is `Obligations.HostRecordsTheResponse`. The host has the turn when
the schedule names it, or when the schedule has run out and the block is idle (log entry 3). -/
def Obligations.StepRunsTheHostsTransaction : Prop :=
  ∀ (s : State) (rest : List Turn) (r : Record) (dest : Option Nat) (i : Instr),
    HostHasTurn s rest → s.script[s.pos]? = some (.tx r dest) → decode (.hosttx r) = .ok i → destOk i dest = true →
    ∃ t, exec i { s with schedule := rest } = .next t ∧ step s = .next (t.retire dest)

/-- When the engine has the turn and BUSY is 1, the step runs the command that OP.CODE holds (R36, R115). The engine has the turn
when the schedule names it, or when the schedule has run out (log entry 3). -/
def Obligations.StepRunsTheSelectedCommand : Prop :=
  ∀ (s : State) (rest : List Turn) (i : Instr),
    (s.schedule = .engine :: rest ∨ (s.schedule = [] ∧ rest = [])) → s.busy = true → decode (.cmd s.opCode) = .ok i →
    step s = exec i { s with schedule := rest }

/-- A START of an idle block runs the command that OP selects, with the IE of the same write (R92, R110): it is that
instruction's meaning in the idle block, and then the OKAY response. (That a command's meaning in an idle block is its accept is
the model's choice, log entry 5.) -/
def Obligations.StartRunsTheSelectedCommand : Prop :=
  ∀ (s : State) (v : Word) (i : Instr), s.busy = false → IsStart v → decode (.cmd s.opCode) = .ok i →
    ∃ t, exec i { s with ie := v.getLsbD 8 } = .next t ∧ exec (.wr32 0x004#22 v) s = .next (t.answer .done)

/-- An idle block takes no engine step and keeps all its state (R206): only the turn is used up. -/
def Obligations.IdleBlockTakesNoEngineStep : Prop :=
  ∀ (s : State) (rest : List Turn), s.schedule = .engine :: rest → s.busy = false →
    step s = .next { s with schedule := rest }

/-- The parameters are fixed for a machine: no step writes them (00_scope.md R7, R42). -/
def Obligations.StepKeepsTheParameters : Prop := ∀ s t : State, step s = .next t → t.cfg = s.cfg

/-! ## Host reads -/

/-- R63, rd8: an idle block returns the backed byte, zero-extended, and nothing else changes. -/
def Obligations.Rd8ReturnsTheBufferByte : Prop :=
  ∀ (s : State) (off : Offset) (i : Nat), s.cfg.valid = true → s.busy = false →
    (off.toNat = 0x100000 + i → i < s.cfg.ibufBytes →
      ∃ w : Word, w.toNat = (s.ibufByte i).toNat ∧ exec (.rd8 off) s = .next { s with reply := some (.data w) }) ∧
    (off.toNat = 0x200000 + i → i < s.cfg.obufBytes →
      ∃ w : Word, w.toNat = (s.obufByte i).toNat ∧ exec (.rd8 off) s = .next { s with reply := some (.data w) })

/-- R63, R64, rd32: an idle block returns the aligned backed word, most significant byte first, and nothing else changes. -/
def Obligations.Rd32ReturnsTheBigEndianWord : Prop :=
  ∀ (s : State) (off : Offset) (i : Nat), s.cfg.valid = true → s.busy = false → i % 4 = 0 →
    (off.toNat = 0x100000 + i → i < s.cfg.ibufBytes →
      ∃ w : Word,
        w.toNat = (s.ibufByte i).toNat * 2 ^ 24 + (s.ibufByte (i + 1)).toNat * 2 ^ 16 + (s.ibufByte (i + 2)).toNat * 2 ^ 8 +
          (s.ibufByte (i + 3)).toNat ∧
        exec (.rd32 off) s = .next { s with reply := some (.data w) }) ∧
    (off.toNat = 0x200000 + i → i < s.cfg.obufBytes →
      ∃ w : Word,
        w.toNat = (s.obufByte i).toNat * 2 ^ 24 + (s.obufByte (i + 1)).toNat * 2 ^ 16 + (s.obufByte (i + 2)).toNat * 2 ^ 8 +
          (s.obufByte (i + 3)).toNat ∧
        exec (.rd32 off) s = .next { s with reply := some (.data w) })

/-- A 32-bit read of a register, busy or idle, returns its value (R62, R119), laid out as R22 to R33 say. -/
def Obligations.Rd32ReturnsTheRegister : Prop :=
  ∀ (s : State) (r : Reg), ∃ w : Word,
    exec (.rd32 (regOffset r)) s = .next { s with reply := some (.data w) } ∧
    w.toNat = match r with
      | .id => 0x53560001
      | .ctrl => s.ie.toNat * 2 ^ 8
      | .status => s.busy.toNat + s.done.toNat * 2 + s.err.toNat * 4 + (s.done && s.ie).toNat * 8 + s.errCode.toNat * 2 ^ 8
      | .op => s.opCode.toNat
      | .src => s.src.toNat
      | .dst => s.dst.toNat
      | .width => s.width.toNat
      | .height => s.height.toNat
      | .len => s.len.toNat
      | .rowBytes => (s.width.toNat + 31) / 32 * 4
      | .outCount => s.outCount.toNat
      | .hdr => s.hdrCmf.toNat * 2 ^ 8 + s.hdrFlg.toNat

/-- A 16-bit access, read or write, gets SLVERR at every offset and changes nothing (R62, R63, R67, R96). -/
def Obligations.HalfwordAccessesGetSlverr : Prop :=
  ∀ (s : State) (off : Offset) (v : Word),
    exec (.rd16 off) s = .next { s with reply := some .slverr } ∧
    exec (.wr16 off v) s = .next { s with reply := some .slverr }

/-- No read of any offset has a side effect (R70): a read completes in every state, and changes the response only. -/
def Obligations.ReadsHaveNoSideEffect : Prop :=
  ∀ (s : State) (i : Instr) (a : HostAccess), hostAccess i = some a → a.write = none →
    ∃ r : Reply, exec i s = .next { s with reply := some r }

/-! ## Host writes -/

/-- R63, wr8: an idle block stores `v[7:0]` in the backed byte; every other byte and every register is unchanged. -/
def Obligations.Wr8StoresTheByte : Prop :=
  ∀ (s : State) (off : Offset) (v : Word) (i : Nat), s.cfg.valid = true → s.busy = false →
    (off.toNat = 0x100000 + i → i < s.cfg.ibufBytes →
      ∃ t, exec (.wr8 off v) s = .next t ∧ t = { s with ibuf := t.ibuf, reply := some .done } ∧
        (t.ibufByte i).toNat = v.toNat % 256 ∧ ∀ j, j ≠ i → t.ibufByte j = s.ibufByte j) ∧
    (off.toNat = 0x200000 + i → i < s.cfg.obufBytes →
      ∃ t, exec (.wr8 off v) s = .next t ∧ t = { s with obuf := t.obuf, reply := some .done } ∧
        (t.obufByte i).toNat = v.toNat % 256 ∧ ∀ j, j ≠ i → t.obufByte j = s.obufByte j)

/-- R63, R64, wr32 to a buffer: an idle block stores the four bytes, most significant first; every other byte and every
register is unchanged. -/
def Obligations.Wr32StoresTheBigEndianWord : Prop :=
  ∀ (s : State) (off : Offset) (v : Word) (i : Nat), s.cfg.valid = true → s.busy = false → i % 4 = 0 →
    (off.toNat = 0x100000 + i → i < s.cfg.ibufBytes →
      ∃ t, exec (.wr32 off v) s = .next t ∧ t = { s with ibuf := t.ibuf, reply := some .done } ∧
        (∀ j < 4, (t.ibufByte (i + j)).toNat = v.toNat / 2 ^ (8 * (3 - j)) % 256) ∧
        ∀ j, j < i ∨ i + 4 ≤ j → t.ibufByte j = s.ibufByte j) ∧
    (off.toNat = 0x200000 + i → i < s.cfg.obufBytes →
      ∃ t, exec (.wr32 off v) s = .next t ∧ t = { s with obuf := t.obuf, reply := some .done } ∧
        (∀ j < 4, (t.obufByte (i + j)).toNat = v.toNat / 2 ^ (8 * (3 - j)) % 256) ∧
        ∀ j, j < i ∨ i + 4 ≤ j → t.obufByte j = s.obufByte j)

/-- R72: a read returns the last write to that byte, and a write of one buffer byte is seen at no other offset. -/
def Obligations.ReadReturnsTheLastWrite : Prop :=
  ∀ (s t : State) (off : Offset) (v : Word), s.cfg.valid = true → exec (.wr8 off v) s = .next t → t.reply = some .done →
    (∃ u, exec (.rd8 off) t = .next u ∧ u.reply = some (.data (v &&& 0xFF#32))) ∧
    ∀ (off' : Offset), off' ≠ off →
      ∃ u u', exec (.rd8 off') t = .next u ∧ exec (.rd8 off') s = .next u' ∧ u.reply = u'.reply

/-- R25 to R30: an idle block stores a write of an operand register, masked to the field, and nothing else changes. -/
def Obligations.OperandRegisterWrites : Prop :=
  ∀ (s : State) (v : Word), s.busy = false →
    exec (.wr32 0x00C#22 v) s = .next { s with opCode := v.extractLsb' 0 4, reply := some .done } ∧
    exec (.wr32 0x010#22 v) s = .next { s with src := v, reply := some .done } ∧
    exec (.wr32 0x014#22 v) s = .next { s with dst := v, reply := some .done } ∧
    exec (.wr32 0x018#22 v) s = .next { s with width := v.extractLsb' 0 16, reply := some .done } ∧
    exec (.wr32 0x01C#22 v) s = .next { s with height := v.extractLsb' 0 16, reply := some .done } ∧
    exec (.wr32 0x020#22 v) s = .next { s with len := v, reply := some .done }

/-- R21: a write to a read-only register is ignored and gets the OKAY response, busy or idle. -/
def Obligations.ReadOnlyRegistersIgnoreWrites : Prop :=
  ∀ (s : State) (r : Reg) (v : Word), r = .id ∨ r = .rowBytes ∨ r = .outCount ∨ r = .hdr →
    exec (.wr32 (regOffset r) v) s = .next { s with reply := some .done }

/-- The W1C write of STATUS (R24, R196), busy or idle: bit 1 clears DONE and so drops IRQ; ERR and ERRCODE keep their values. -/
def Obligations.StatusWriteClearsDone : Prop :=
  ∀ (s : State) (v : Word),
    (v.getLsbD 1 = true → ∃ t, exec (.wr32 0x008#22 v) s = .next t ∧ t = { s with done := false, reply := some .done } ∧
      t.irq = false) ∧
    (v.getLsbD 1 = false → exec (.wr32 0x008#22 v) s = .next { s with reply := some .done })

/-- A write of CTRL with neither START nor SRST, busy or idle, sets IE and nothing else (R23, R119), and IRQ follows at once
(R199). -/
def Obligations.CtrlWriteSetsIe : Prop :=
  ∀ (s : State) (v : Word), v.getLsbD 0 = false → v.getLsbD 1 = false →
    ∃ t, exec (.wr32 0x004#22 v) s = .next t ∧ t = { s with ie := v.getLsbD 8, reply := some .done } ∧
      t.irq = (s.done && v.getLsbD 8)

/-- The reserved bits of each register (R22 to R33). START and SRST of CTRL are not reserved. -/
def reservedBits : Reg → Word
  | .id => 0#32
  | .ctrl => 0xFFFFFEFC#32
  | .status => 0xFFFFF0F0#32
  | .op => 0xFFFFFFF0#32
  | .src => 0#32
  | .dst => 0#32
  | .width => 0xFFFF0000#32
  | .height => 0xFFFF0000#32
  | .len => 0#32
  | .rowBytes => 0xFFFFC000#32
  | .outCount => 0xFFE00000#32
  | .hdr => 0xFFFF0000#32

/-- R41: a reserved bit of a register reads as 0, and a host write to it is ignored and does not change the response. -/
def Obligations.ReservedBitsReadZeroAndIgnoreWrites : Prop :=
  ∀ (s : State) (r : Reg) (v : Word),
    readReg s r &&& reservedBits r = 0#32 ∧
    exec (.wr32 (regOffset r) v) s = exec (.wr32 (regOffset r) (v &&& ~~~(reservedBits r))) s

/-! ## Bus errors and the interlock -/

/-- R197: every host access answers, and with SLVERR for exactly the causes of the list. -/
def Obligations.SlverrForExactlyTheListedCauses : Prop :=
  ∀ (s : State) (i : Instr) (a : HostAccess), hostAccess i = some a →
    ∃ t r, exec i s = .next t ∧ t.reply = some r ∧ (r = .slverr ↔ BusErrorCause s a)

/-- R66: every host access gets one response. With SLVERR it changes no state, returns read data 0, and leaves no record in the
block; otherwise it gets OKAY, a read with its data. -/
def Obligations.SlverrChangesNothing : Prop :=
  ∀ (s : State) (i : Instr) (a : HostAccess), hostAccess i = some a →
    ∃ (t : State) (r : Reply), exec i s = .next t ∧ t.reply = some r ∧
      (r = .slverr → t = { s with reply := some .slverr } ∧ r.rdata = 0#32) ∧
      (r ≠ .slverr → if a.write.isSome then r = .done else ∃ v, r = .data v ∧ r.rdata = v)

/-- R67: an access to an offset that R61 marks unmapped, the unbacked top of each window included, gets SLVERR. -/
def Obligations.UnmappedOffsetsGetSlverr : Prop :=
  ∀ (s : State) (i : Instr) (a : HostAccess), hostAccess i = some a →
    ((0x30 ≤ a.off.toNat ∧ a.off.toNat < 0x100000) ∨
      (0x100000 + s.cfg.ibufBytes ≤ a.off.toNat ∧ a.off.toNat < 0x200000) ∨
      (0x200000 + s.cfg.obufBytes ≤ a.off.toNat ∧ s.cfg.valid = true)) →
    exec i s = .next { s with reply := some .slverr }

/-- R68: while BUSY, every host access to the IBUF or OBUF window gets SLVERR, read or write, any size. -/
def Obligations.BuffersAreLockedWhileBusy : Prop :=
  ∀ (s : State) (i : Instr) (a : HostAccess), s.busy = true → hostAccess i = some a →
    0x100000 ≤ a.off.toNat → a.off.toNat < 0x300000 → exec i s = .next { s with reply := some .slverr }

/-- R119: while BUSY, writes to the operand registers and a START get SLVERR and change nothing; every register read, a CTRL
write without START or with SRST, a STATUS write and a write to a read-only register behave as when idle. -/
def Obligations.RegistersWhileBusy : Prop :=
  ∀ (s : State) (r : Reg) (v : Word), s.busy = true →
    ((r = .op ∨ r = .src ∨ r = .dst ∨ r = .width ∨ r = .height ∨ r = .len ∨ (r = .ctrl ∧ IsStart v)) →
      exec (.wr32 (regOffset r) v) s = .next { s with reply := some .slverr }) ∧
    (∃ w, exec (.rd32 (regOffset r)) s = .next { s with reply := some (.data w) } ∧ w = readReg s r) ∧
    (v.getLsbD 0 = false → v.getLsbD 1 = false →
      exec (.wr32 0x004#22 v) s = .next { s with ie := v.getLsbD 8, reply := some .done }) ∧
    (v.getLsbD 1 = true → exec (.wr32 0x004#22 v) s = .next { s.softReset with reply := some .done }) ∧
    exec (.wr32 0x008#22 v) s = .next { s with done := s.done && !v.getLsbD 1, reply := some .done } ∧
    (r = .id ∨ r = .rowBytes ∨ r = .outCount ∨ r = .hdr →
      exec (.wr32 (regOffset r) v) s = .next { s with reply := some .done })

/-- What the host can do to a running command (R118, R226): after a host's turn while BUSY, both buffers, the operands, OP,
OUT_COUNT and BUSY are as before, or a soft reset has ended the command and the buffers are as before. -/
def Obligations.HostCannotDisturbACommand : Prop :=
  ∀ (s t : State) (rest : List Turn), s.schedule = .host :: rest → s.busy = true → step s = .next t →
    (∀ i, t.ibufByte i = s.ibufByte i) ∧ (∀ i, t.obufByte i = s.obufByte i) ∧
    ((t.busy = true ∧ t.opCode = s.opCode ∧ t.src = s.src ∧ t.dst = s.dst ∧ t.len = s.len ∧ t.width = s.width ∧
        t.height = s.height ∧ t.outCount = s.outCount ∧ t.err = s.err ∧ t.errCode = s.errCode) ∨
      (t.busy = false ∧ t.done = false ∧ t.ie = false ∧ t.opCode = 0 ∧ t.outCount = 0))

/-! ## The accept -/

/-- R111 and R173: the checks of an accept, in priority order, the first that fails giving the code; the units and unit size of
each command; and the header capture of a STRIP that passes SHORT and RANGE. -/
def Obligations.AcceptRunsTheChecksInOrder : Prop :=
  ∀ (s : State) (v : Word), s.busy = false → IsStart v →
    ∃ t, exec (.wr32 0x004#22 v) s = .next t ∧ t.reply = some .done ∧ t.err = decide (t.errCode ≠ 0) ∧
    let W := s.width.toNat; let H := s.height.toNat; let RB := (W + 31) / 32 * 4
    let SRC := s.src.toNat; let DST := s.dst.toNat; let LEN := s.len.toNat
    let IB := s.cfg.ibufBytes; let OB := s.cfg.obufBytes
    let hdrKept := t.hdrCmf = s.hdrCmf ∧ t.hdrFlg = s.hdrFlg
    let hdrTaken := t.hdrCmf = s.ibufByte SRC ∧ t.hdrFlg = s.ibufByte (SRC + 1)
    (s.opCode ≠ 1 ∧ s.opCode ≠ 2 ∧ s.opCode ≠ 3 → t.errCode = 1 ∧ hdrKept) ∧
    (s.opCode = 1 → hdrKept ∧
      if DST % 4 ≠ 0 then t.errCode = 2
      else if SRC + W * H > IB ∨ DST + H * RB > OB then t.errCode = 4
      else t.errCode = 0) ∧
    (s.opCode = 2 → hdrKept ∧
      if SRC % 4 ≠ 0 ∨ DST % 4 ≠ 0 then t.errCode = 2
      else if SRC + 4 * (W * H) > IB ∨ DST + 4 * (W * H) > OB then t.errCode = 4
      else t.errCode = 0) ∧
    (s.opCode = 3 →
      if LEN < 6 then t.errCode = 3 ∧ hdrKept
      else if SRC + LEN > IB ∨ DST + (LEN - 6) > OB then t.errCode = 4 ∧ hdrKept
      else if (s.ibufByte SRC).toNat % 16 ≠ 8 then t.errCode = 5 ∧ hdrTaken
      else if (s.ibufByte (SRC + 1)).getLsbD 5 = true then t.errCode = 6 ∧ hdrTaken
      else t.errCode = 0 ∧ hdrTaken) ∧
    (units .pack s = H * RB ∧ unitSize .pack = 1 ∧ units .premul s = W * H ∧ unitSize .premul = 4 ∧
      units .strip s = LEN - 6 ∧ unitSize .strip = 1)

/-- R113 and R194: a command that fails a check writes no OBUF byte, leaves OUT_COUNT at 0 and completes with the error; nothing
but STATUS, OUT_COUNT, HDR (for METHOD and FDICT) and the IE of the same write changes, and the write gets OKAY. -/
def Obligations.FailedCommandHasNoOutput : Prop :=
  ∀ (s t : State) (v : Word), s.busy = false → IsStart v → exec (.wr32 0x004#22 v) s = .next t → t.err = true →
    t = { s with
      ie := v.getLsbD 8, done := true, err := true, errCode := t.errCode, outCount := 0, hdrCmf := t.hdrCmf,
      hdrFlg := t.hdrFlg, reply := some .done } ∧
    1 ≤ t.errCode.toNat ∧ t.errCode.toNat ≤ 6 ∧
    (t.errCode ≠ 5 ∧ t.errCode ≠ 6 → t.hdrCmf = s.hdrCmf ∧ t.hdrFlg = s.hdrFlg) ∧
    (t.errCode = 5 ∨ t.errCode = 6 → t.hdrCmf = s.ibufByte s.src.toNat ∧ t.hdrFlg = s.ibufByte (s.src.toNat + 1))

/-- R114: a command that passes its checks sets BUSY and writes nothing else when it has units to write, and completes at once
with no output when it has none. In both cases DONE, ERR, ERRCODE and OUT_COUNT were cleared first (R110). -/
def Obligations.PassedCommandStartsOrCompletes : Prop :=
  ∀ (s t : State) (v : Word) (c : Command), s.busy = false → IsStart v → decodeCode s.opCode = .ok c →
    exec (.wr32 0x004#22 v) s = .next t → t.err = false →
    t = { s with
      ie := v.getLsbD 8, busy := decide (0 < units c s), done := decide (units c s = 0), err := false, errCode := 0,
      outCount := 0, hdrCmf := t.hdrCmf, hdrFlg := t.hdrFlg, reply := some .done } ∧
    (units c s = 0 ↔ match c with
      | .pack => s.width.toNat = 0 ∨ s.height.toNat = 0
      | .premul => s.width.toNat = 0 ∨ s.height.toNat = 0
      | .strip => s.len.toNat = 6)

/-- A command's checks depend only on its operands and on IBUF, never on the previous command (R110): two idle blocks that agree
on those report the same outcome. -/
def Obligations.AcceptIgnoresThePast : Prop :=
  ∀ (s s' : State) (v : Word), s.busy = false → s'.busy = false → IsStart v →
    s'.cfg = s.cfg → s'.opCode = s.opCode → s'.src = s.src → s'.dst = s.dst → s'.len = s.len → s'.width = s.width →
    s'.height = s.height → (∀ i, s'.ibufByte i = s.ibufByte i) →
    ∃ t t', exec (.wr32 0x004#22 v) s = .next t ∧ exec (.wr32 0x004#22 v) s' = .next t' ∧
      t'.busy = t.busy ∧ t'.done = t.done ∧ t'.err = t.err ∧ t'.errCode = t.errCode ∧ t'.outCount = t.outCount ∧
      t'.irq = t.irq

/-- R176: STRIP validates the low nibble of CMF and bit 5 of FLG and nothing else of the container: two IBUF contents that agree
on those give the same outcome of the accept. -/
def Obligations.StripValidatesTwoFieldsOnly : Prop :=
  ∀ (s : State) (m : Memory) (v : Word), s.busy = false → IsStart v → s.opCode = 3 →
    (State.ibufByte { s with ibuf := m } s.src.toNat).toNat % 16 = (s.ibufByte s.src.toNat).toNat % 16 →
    (State.ibufByte { s with ibuf := m } (s.src.toNat + 1)).getLsbD 5 = (s.ibufByte (s.src.toNat + 1)).getLsbD 5 →
    ∃ t t', exec (.wr32 0x004#22 v) s = .next t ∧ exec (.wr32 0x004#22 v) { s with ibuf := m } = .next t' ∧
      t'.busy = t.busy ∧ t'.done = t.done ∧ t'.err = t.err ∧ t'.errCode = t.errCode

/-! ## The engine -/

/-- R133: the PACK engine step writes output byte `k`: bit `7 - xBit` is set exactly when column `8 * xb + xBit` is inside the
row and its pixel is not 0. Everything but that byte, OUT_COUNT and, at the last byte, BUSY and DONE is unchanged. -/
def Obligations.PackStepWritesOneByte : Prop :=
  ∀ s : State, InFlight .pack s →
    let W := s.width.toNat; let RB := (W + 31) / 32 * 4; let k := s.outCount.toNat
    ∃ t, exec .pack s = .next t ∧
      (∀ xBit < 8, (t.obufByte (s.dst.toNat + k)).getLsbD (7 - xBit) = true ↔
        k % RB * 8 + xBit < W ∧ s.ibufByte (s.src.toNat + k / RB * W + (k % RB * 8 + xBit)) ≠ 0) ∧
      (∀ i, i ≠ s.dst.toNat + k → t.obufByte i = s.obufByte i) ∧
      t = { s with
        obuf := t.obuf, outCount := s.outCount + 1, busy := decide (k + 1 ≠ s.height.toNat * RB),
        done := decide (k + 1 = s.height.toNat * RB) }

/-- R154 and R157: the PREMUL engine step for pixel `i` writes the four lanes `a`, `r * a div 255`, `g * a div 255`,
`b * a div 255` at ascending offsets, in one step, so that the word is `{a, r', g', b'}`. Everything else but OUT_COUNT and, at the last word, BUSY and DONE is
unchanged. -/
def Obligations.PremulStepWritesOneWord : Prop :=
  ∀ s : State, InFlight .premul s →
    let i := s.outCount.toNat / 4; let fromAt := s.src.toNat + 4 * i; let toAt := s.dst.toNat + 4 * i
    let a := (s.ibufByte (fromAt + 3)).toNat
    ∃ t, exec .premul s = .next t ∧
      (t.obufByte (toAt + 0)).toNat = a ∧
      (t.obufByte (toAt + 1)).toNat = (s.ibufByte (fromAt + 0)).toNat * a / 255 ∧
      (t.obufByte (toAt + 2)).toNat = (s.ibufByte (fromAt + 1)).toNat * a / 255 ∧
      (t.obufByte (toAt + 3)).toNat = (s.ibufByte (fromAt + 2)).toNat * a / 255 ∧
      (t.obufWord toAt).toNat = a * 2 ^ 24 + (s.ibufByte (fromAt + 0)).toNat * a / 255 * 2 ^ 16 +
        (s.ibufByte (fromAt + 1)).toNat * a / 255 * 2 ^ 8 + (s.ibufByte (fromAt + 2)).toNat * a / 255 ∧
      (∀ j, j < toAt ∨ toAt + 4 ≤ j → t.obufByte j = s.obufByte j) ∧
      t = { s with
        obuf := t.obuf, outCount := s.outCount + 4, busy := decide (i + 1 ≠ s.width.toNat * s.height.toNat),
        done := decide (i + 1 = s.width.toNat * s.height.toNat) }

/-- R174: the STRIP engine step copies body byte `i`. Everything else but OUT_COUNT and, at the last byte, BUSY and DONE is
unchanged. It reads the body only, never the header or the 4 trailer bytes: a block whose IBUF differs there writes the same
byte. -/
def Obligations.StripStepCopiesOneByte : Prop :=
  ∀ s : State, InFlight .strip s →
    let i := s.outCount.toNat
    ∃ t, exec .strip s = .next t ∧
      t.obufByte (s.dst.toNat + i) = s.ibufByte (s.src.toNat + 2 + i) ∧
      (∀ j, j ≠ s.dst.toNat + i → t.obufByte j = s.obufByte j) ∧
      t = { s with
        obuf := t.obuf, outCount := s.outCount + 1, busy := decide (i + 1 ≠ s.len.toNat - 6),
        done := decide (i + 1 = s.len.toNat - 6) } ∧
      ∀ m : Memory,
        (∀ j, s.src.toNat + 2 ≤ j → j ≤ s.src.toNat + s.len.toNat - 5 →
          State.ibufByte { s with ibuf := m } j = s.ibufByte j) →
        exec .strip { s with ibuf := m } = .next { t with ibuf := m }

/-- R131: the padded width is `(W + 31) & ~31`, that is `32 * ceil(W / 32)`: 0 for 0, W itself for a multiple of 32. A row has
`PW / 8` bytes, a multiple of 4, which ROW_BYTES shows in its 14 bits (R31). -/
def Obligations.PaddedWidthAndRowBytes : Prop :=
  ∀ w : BitVec 16,
    BitVec.ofNat 32 (paddedWidth w) = (w.setWidth 32 + 31#32) &&& ~~~31#32 ∧ paddedWidth w ≤ 65536 ∧
    paddedWidth w % 32 = 0 ∧ w.toNat ≤ paddedWidth w ∧ paddedWidth w < w.toNat + 32 ∧
    (w.toNat % 32 = 0 → paddedWidth w = w.toNat) ∧
    rowBytes w = paddedWidth w / 8 ∧ rowBytes w % 4 = 0 ∧ rowBytes w < 2 ^ 14 ∧
    ∀ s : State, s.width = w → (readReg s .rowBytes).toNat = rowBytes w

/-- R153 and R156: `scale` is the exact product, floor-divided by 255; and its numeric laws 1 to 8. -/
def Obligations.ScaleLaws : Prop :=
  (∀ c a : Byte, (scale c a).toNat = c.toNat * a.toNat / 255 ∧
    255 * (scale c a).toNat ≤ c.toNat * a.toNat ∧ c.toNat * a.toNat < 255 * ((scale c a).toNat + 1) ∧
    (scale c a).toNat ≤ min c.toNat a.toNat ∧
    scale c 0 = 0 ∧ scale 0 a = 0 ∧ scale c 255 = c ∧ scale 255 a = a ∧ scale c a = scale a c) ∧
  (∀ c₁ c₂ a : Byte, c₁.toNat ≤ c₂.toNat → (scale c₁ a).toNat ≤ (scale c₂ a).toNat) ∧
  scale 1 254 = 0 ∧ scale 128 128 = 64 ∧ scale 254 254 = 253 ∧ scale 200 100 = 78 ∧
  scale 255 255 = 255 ∧ (255 * 255) >>> 8 = 254

/-- R138: once PACK's output stands in OBUF, the aligned 32-bit word `j` of row `y` holds the bit of pixel `x = 32 * j + n` in
bit `31 - n`; padding columns are 0 (R135). -/
def Obligations.PackedRowWordView : Prop :=
  ∀ (s t : State) (y j n : Nat),
    (∀ k < packDstSpan s, t.obufByte (s.dst.toNat + k) = packOut s k) →
    y < s.height.toNat → j < rowBytes s.width / 4 → n < 32 →
    ((t.obufWord (s.dst.toNat + y * rowBytes s.width + 4 * j)).getLsbD (31 - n) = true ↔
      32 * j + n < s.width.toNat ∧ s.ibufByte (s.src.toNat + y * s.width.toNat + (32 * j + n)) ≠ 0)

/-- R134, R155 and R175: the whole-operation functions, byte by byte. PACK's byte is the sum of `2^(7 - xBit)` over its truthy
columns, so it is bit by bit the truthiness of its pixels; PREMUL's are the lanes of each pixel; STRIP's are the body. -/
def Obligations.WholeOperationFunctions : Prop :=
  ∀ s : State,
    (∀ y xb xBit, xb < rowBytes s.width → xBit < 8 →
      ((outByte .pack s (y * rowBytes s.width + xb)).getLsbD (7 - xBit) = true ↔
        8 * xb + xBit < s.width.toNat ∧ s.ibufByte (s.src.toNat + y * s.width.toNat + (8 * xb + xBit)) ≠ 0)) ∧
    (∀ i, outByte .premul s (4 * i + 0) = s.ibufByte (s.src.toNat + 4 * i + 3) ∧
      ∀ lane < 3, (outByte .premul s (4 * i + 1 + lane)).toNat =
        (s.ibufByte (s.src.toNat + 4 * i + lane)).toNat * (s.ibufByte (s.src.toNat + 4 * i + 3)).toNat / 255) ∧
    (∀ i, outByte .strip s i = s.ibufByte (s.src.toNat + 2 + i))

/-- R120: a running command reads only its source span of IBUF and no OBUF byte, and writes only its destination span of OBUF and
no IBUF byte. Two blocks that differ in any other buffer byte write the same unit and leave those bytes alone. -/
def Obligations.EngineStaysInItsSpans : Prop :=
  ∀ (c : Command) (s : State) (m n : Memory), InFlight c s →
    (∀ i, s.src.toNat ≤ i → i < s.src.toNat + srcSpan c s → State.ibufByte { s with ibuf := m } i = s.ibufByte i) →
    ∃ t t', exec c.instr s = .next t ∧ exec c.instr { s with ibuf := m, obuf := n } = .next t' ∧
      t.ibuf = s.ibuf ∧ t' = { t with ibuf := m, obuf := t'.obuf } ∧
      ∀ i,
        (t.obufByte i = s.obufByte i ∧ t'.obufByte i = State.obufByte { s with obuf := n } i) ∨
        (s.dst.toNat ≤ i ∧ i < s.dst.toNat + dstSpan c s ∧ t'.obufByte i = t.obufByte i)

/-- R229 (and R31): a read of ROW_BYTES straight after a WIDTH write returns the row bytes of the new width. -/
def Obligations.RowBytesFollowsWidth : Prop :=
  ∀ (s : State) (v : Word), s.busy = false →
    ∃ t, exec (.wr32 0x018#22 v) s = .next t ∧
      exec (.rd32 0x024#22) t =
        .next { t with reply := some (.data ((((v &&& 0xFFFF#32) + 31#32) &&& ~~~31#32) >>> 3)) }

/-- OUT_COUNT read while BUSY is a multiple of the unit size below the command's total (R32, 93_implementation_defined.md
1.2). -/
def Obligations.OutCountWhileBusy : Prop :=
  ∀ s : State, s.Inv → s.busy = true →
    ∃ c w, decodeCode s.opCode = .ok c ∧ exec (.rd32 0x028#22) s = .next { s with reply := some (.data w) } ∧
      w.toNat % unitSize c = 0 ∧ w.toNat < dstSpan c s

/-! ## Runs -/

/-- The state after reset meets the invariant, for all parameters that R7 allows. -/
def Obligations.ResetMeetsTheInvariant : Prop :=
  State.reset.Inv ∧ ∀ cfg : Params, cfg.valid = true → (State.resetWith cfg).Inv

/-- Every step keeps the invariant, from every state that meets it, whoever has the turn. -/
def Obligations.StepKeepsTheInvariant : Prop := ∀ s t : State, s.Inv → step s = .next t → t.Inv

/-- No engine step can raise an error of either kind (R190), and the engine forms no index outside a buffer (R112): from a state
that meets the invariant no step faults. -/
def Obligations.NoStepFaults : Prop := ∀ (s : State) (f : Fault), s.Inv → step s ≠ .fault f

/-- R118, the result law: from a command just accepted, through any interleaving of turns in which it stays BUSY, to its
completion: the destination span holds the whole-operation function of the IBUF contents at the accept, every other OBUF byte and
all of IBUF are unchanged, and OUT_COUNT is the length of the output. -/
def Obligations.ResultLaw : Prop :=
  ∀ (c : Command) (n : Nat) (s₀ s₁ : State), s₀.Inv → InFlight c s₀ → s₀.outCount = 0 →
    busyFor n s₀ → stepsTo n s₀ s₁ → s₁.busy = false → s₁.done = true →
    (∀ j < dstSpan c s₀, s₁.obufByte (s₀.dst.toNat + j) = outByte c s₀ j) ∧
    (∀ i, i < s₀.dst.toNat ∨ s₀.dst.toNat + dstSpan c s₀ ≤ i → s₁.obufByte i = s₀.obufByte i) ∧
    (∀ i, s₁.ibufByte i = s₀.ibufByte i) ∧
    s₁.outCount.toNat = dstSpan c s₀

/-- R117: a command with `Units(op) = U > 0` completes after exactly U engine steps. (When the schedule names no turn, the engine
of a busy block takes it: log entry 3.) -/
def Obligations.CommandTakesExactlyItsUnits : Prop :=
  ∀ (c : Command) (s : State), s.Inv → InFlight c s → s.outCount = 0 → s.schedule = [] →
    (∀ n < units c s, ∃ t, stepsTo n s t ∧ t.busy = true ∧ t.outCount.toNat = n * unitSize c) ∧
    ∃ t, stepsTo (units c s) s t ∧ t.busy = false ∧ t.done = true ∧ t.err = false ∧ t.irq = s.ie

/-- R223: after a soft reset that cuts a command short, OBUF holds the units written so far and, elsewhere, what it held before
the accept; OUT_COUNT reads 0, DONE stays 0, and there is no IRQ. -/
def Obligations.SoftResetLeavesAPrefix : Prop :=
  ∀ (c : Command) (n : Nat) (s₀ s₁ : State) (v : Word), s₀.Inv → InFlight c s₀ → s₀.outCount = 0 →
    busyFor n s₀ → stepsTo n s₀ s₁ → s₁.busy = true → v.getLsbD 1 = true →
    s₁.unitIndex (unitSize c) < units c s₀ ∧
    ∃ t, exec (.wr32 0x004#22 v) s₁ = .next t ∧
      (∀ j < s₁.unitIndex (unitSize c) * unitSize c, t.obufByte (s₀.dst.toNat + j) = outByte c s₀ j) ∧
      (∀ i, i < s₀.dst.toNat ∨ s₀.dst.toNat + s₁.unitIndex (unitSize c) * unitSize c ≤ i →
        t.obufByte i = s₀.obufByte i) ∧
      t.outCount = 0 ∧ t.busy = false ∧ t.done = false ∧ t.irq = false

/-- R34: the IRQ port is `DONE & IE` in every state, STATUS bit 3 shows it, and it is 0 after reset. -/
def Obligations.IrqIsDoneAndIe : Prop :=
  (∀ s : State, s.irq = (s.done && s.ie) ∧ (readReg s .status).getLsbD 3 = s.irq) ∧ State.reset.irq = false

/-! ## The host's script -/

/-- R98: when the host has the turn, at a label it goes to the next line; `bz` and `bnz` go to a line of their label, or to the
next line, on `tN & MASK`. None of the three makes a bus access: nothing else changes but the turn. (Which of several equal labels
is taken is the model's choice, log entry 7, and is not stated; when the host has an unscheduled turn is log entry 3.) -/
def Obligations.ScriptBranches : Prop :=
  ∀ (s : State) (rest : List Turn), HostHasTurn s rest →
    (∀ l, s.script[s.pos]? = some (.label l) → step s = .next { s with schedule := rest, pos := s.pos + 1 }) ∧
    ∀ (t : Nat) (mask : Word) (l : Nat) (ht : t < 8), Stmt.label l ∈ s.script →
      ∃ line, s.script[line]? = some (.label l) ∧
        (s.script[s.pos]? = some (.bz t mask l) →
          step s = .next { s with schedule := rest, pos := if s.temps[t] &&& mask = 0 then line else s.pos + 1 }) ∧
        (s.script[s.pos]? = some (.bnz t mask l) →
          step s = .next { s with schedule := rest, pos := if s.temps[t] &&& mask = 0 then s.pos + 1 else line })

/-- R98: after an access the host records its response in the trace and goes on; a read stores its data in `tN`, 0 when the
response is SLVERR (R66), and no other temporary changes. -/
def Obligations.HostRecordsTheResponse : Prop :=
  ∀ (s : State) (r : Reply) (n : Nat) (hn : n < 8), s.reply = some r →
    (∃ t : State, s.retire none = t ∧ t = { s with trace := s.trace ++ [(s.pos, r)], pos := s.pos + 1 }) ∧
    (∃ t : State, s.retire (some n) = t ∧
      t = { s with trace := s.trace ++ [(s.pos, r)], pos := s.pos + 1, temps := t.temps } ∧
      t.temps[n] = (match r with | .data v => v | .done => 0#32 | .slverr => 0#32) ∧
      ∀ (m : Nat) (hm : m < 8), m ≠ n → t.temps[m] = s.temps[m])

/-- A host's turn is refused exactly when its own line is not valid by R96, R98 and 93_implementation_defined.md 1.3. That a bad
line is refused only when the host reaches it, and that a good line of a script with a bad line elsewhere runs, is the model's
choice (log entry 7); when the host has an unscheduled turn is log entry 3. -/
def Obligations.OnlyInvalidLinesAreRefused : Prop :=
  ∀ (s : State) (rest : List Turn) (line : Stmt), HostHasTurn s rest → s.script[s.pos]? = some line →
    ((∃ why, step s = .refused why) ↔ line.wf s.script = false)

/-- Once the script has reached `halt`, and past the last line of a script, a host's turn, busy or idle, only uses itself up; in
particular, with no command in flight and no turn scheduled, nothing changes any more (R121, R206). The spec does not say what the
host does after `halt` (R121): that it does nothing there and past the last line is the model's choice (log entry 7); when the host
has an unscheduled turn is log entry 3. -/
def Obligations.EndedRunStays : Prop :=
  ∀ (s : State) (rest : List Turn), HostHasTurn s rest → (s.runEnded = true ∨ s.script[s.pos]? = none) →
    step s = .next { s with schedule := rest } ∧ (s.schedule = [] → step s = .next s)

/-- R100: every pseudo-instruction expands to valid script, and running its lines as the host's first turns makes the accesses
the rule lists: here, the instruction each line holds. -/
def Obligations.PseudoInstructionsExpandToTheirAccesses : Prop :=
  (∀ p : Pseudo, (∀ t l, p = .waitDone t l → t < 8) → scriptWf (expand p) = true) ∧
  ∀ (dst src w h len : Word) (ie : Bool),
    let start : Word := if ie then 0x101#32 else 0x001#32
    let writes (l : List (Offset × Word)) : List Stmt :=
      l.map fun x => .tx (match encode (.wr32 x.1 x.2) with | .hosttx r => r | .cmd _ => 0) none
    expand (.pack dst src w h ie) =
      writes [(0x010, src), (0x014, dst), (0x018, w), (0x01C, h), (0x00C, 1), (0x004, start)] ∧
    expand (.premul dst src w h ie) =
      writes [(0x010, src), (0x014, dst), (0x018, w), (0x01C, h), (0x00C, 2), (0x004, start)] ∧
    expand (.strip dst src len ie) = writes [(0x010, src), (0x014, dst), (0x020, len), (0x00C, 3), (0x004, start)] ∧
    (∀ t l, expand (.waitDone t l) =
      [.label l, .tx (match encode (.rd32 0x008) with | .hosttx r => r | .cmd _ => 0) (some t), .bz t 2 l]) ∧
    expand .ack = writes [(0x008, 2)] ∧ expand .srst = writes [(0x004, 2)]

/-- R60: bus address `A` selects block offset `A - BASE`. -/
def Obligations.BusAddressSelectsItsOffset : Prop :=
  ∀ (p : Params) (addr : Nat) (off : Offset),
    selectOffset p addr = some off ↔ addr = p.base + off.toNat
end

