-- ==== Sys2Proof/Laws/Encoding.lean ====
section
/-! SUPPORT. The fields of a HOSTTX record (30_encoding.md R99): a record and its five fields determine each other. -/

namespace Sys2Proof

/-- A record built from its fields, as a number. -/
theorem hosttxRecord_toNat (w : Bool) (sz : BitVec 3) (off : Offset) (data : Word) :
    (hosttxRecord w sz off data).toNat =
      w.toNat * 2 ^ 63 + sz.toNat * 2 ^ 60 + off.toNat * 2 ^ 32 + data.toNat := by
  have := off.isLt; have := data.isLt; have := sz.isLt
  have hb : w.toNat < 2 := Bool.toNat_lt w
  simp only [hosttxRecord, BitVec.toNat_append, BitVec.toNat_ofBool]
  rw [← Nat.shiftLeft_add_eq_or_of_lt (by omega), ← Nat.shiftLeft_add_eq_or_of_lt (by simpa using off.isLt),
    ← Nat.shiftLeft_add_eq_or_of_lt (by omega), ← Nat.shiftLeft_add_eq_or_of_lt (by omega)]
  simp only [Nat.shiftLeft_eq, BitVec.toNat_ofNat]
  omega

/-- A record is the sum of its fields, each at its place. -/
theorem Record.toNat_fields (r : Record) :
    r.toNat = r.isWrite.toNat * 2 ^ 63 + r.size.toNat * 2 ^ 60 + r.zeroBits.toNat * 2 ^ 54 + r.offset.toNat * 2 ^ 32 +
      r.data.toNat := by
  have := r.isLt
  simp only [Record.isWrite, Record.size, Record.zeroBits, Record.offset, Record.data, BitVec.extractLsb'_toNat,
    Nat.shiftRight_eq_div_pow, BitVec.getLsbD, Nat.testBit_eq_decide_div_mod_eq]
  by_cases h : r.toNat / 2 ^ 63 % 2 = 1 <;>
    simp only [h, decide_true, decide_false, Bool.toNat_true, Bool.toNat_false] <;> omega

/-- The fields of a record built from fields are those fields. -/
theorem hosttxRecord_fields (w : Bool) (sz : BitVec 3) (off : Offset) (data : Word) :
    (hosttxRecord w sz off data).isWrite = w ∧ (hosttxRecord w sz off data).size = sz ∧
      (hosttxRecord w sz off data).zeroBits = 0#6 ∧ (hosttxRecord w sz off data).offset = off ∧
      (hosttxRecord w sz off data).data = data := by
  have h := Record.toNat_fields (hosttxRecord w sz off data)
  rw [hosttxRecord_toNat] at h
  generalize hosttxRecord w sz off data = r at h
  have := off.isLt; have := data.isLt; have := sz.isLt
  have := r.offset.isLt; have := r.data.isLt; have := r.size.isLt; have := r.zeroBits.isLt
  have hb : w.toNat < 2 := Bool.toNat_lt w
  have hb' : r.isWrite.toNat < 2 := Bool.toNat_lt _
  refine ⟨?_, BitVec.eq_of_toNat_eq ?_, BitVec.eq_of_toNat_eq ?_, BitVec.eq_of_toNat_eq ?_, BitVec.eq_of_toNat_eq ?_⟩
  · have e : r.isWrite.toNat = w.toNat := by omega
    revert e
    cases r.isWrite <;> cases w <;> simp
  all_goals first | omega | (rw [BitVec.toNat_ofNat]; omega)

/-- A record whose bits 59:54 are 0 is built from its fields. -/
theorem hosttxRecord_of_fields (r : Record) (h : r.zeroBits = 0#6) :
    hosttxRecord r.isWrite r.size r.offset r.data = r := by
  apply BitVec.eq_of_toNat_eq
  rw [hosttxRecord_toNat, Record.toNat_fields r, h]
  simp

/-- R99's mask keeps bits 63:54. -/
theorem Record.kind_toNat (r : Record) : r.kind.toNat = r.toNat / 2 ^ 54 * 2 ^ 54 := by
  have h : r.kind = (r >>> 54) <<< 54 := by
    unfold Record.kind
    ext i hi
    interval_cases i <;> simp
  have := r.isLt
  rw [h, BitVec.toNat_shiftLeft, BitVec.toNat_ushiftRight, Nat.shiftRight_eq_div_pow, Nat.shiftLeft_eq]
  omega

/-- DATA is 0 exactly when the low word of the record is. -/
theorem Record.lowWord_eq_zero_iff (r : Record) : r &&& 0xFFFFFFFF#64 = 0#64 ↔ r.data = 0#32 := by
  rw [BitVec.toNat_eq, BitVec.toNat_eq, BitVec.toNat_and]
  simp only [Record.data, BitVec.extractLsb'_toNat, BitVec.toNat_ofNat]
  rw [show 4294967295 % 2 ^ 64 = 2 ^ 32 - 1 by norm_num, Nat.and_two_pow_sub_one_eq_mod]
  simp

/-- A record meets a match pattern of R99 exactly when W and SZ are the pattern's and bits 59:54 are 0. -/
theorem Record.kind_eq_iff (r : Record) (w : Bool) (sz : BitVec 3) :
    r.kind = BitVec.ofNat 64 (w.toNat * 2 ^ 63 + sz.toNat * 2 ^ 60) ↔
      r.isWrite = w ∧ r.size = sz ∧ r.zeroBits = 0#6 := by
  have h := Record.toNat_fields r
  have h1 := r.offset.isLt; have h2 := r.data.isLt; have h3 := r.size.isLt; have h4 := r.zeroBits.isLt
  have h5 := sz.isLt
  have hb : w.toNat < 2 := Bool.toNat_lt w
  have hb' : r.isWrite.toNat < 2 := Bool.toNat_lt _
  rw [BitVec.toNat_eq, Record.kind_toNat, BitVec.toNat_ofNat, BitVec.toNat_eq (x := r.size),
    BitVec.toNat_eq (x := r.zeroBits)]
  rw [show (0#6).toNat = 0 from rfl]
  have e : r.isWrite = w ↔ r.isWrite.toNat = w.toNat := by cases r.isWrite <;> cases w <;> simp
  rw [e]
  omega

/-- The code of a command, and only it, decodes to the command (R95). -/
theorem decodeCode_ok_iff (code : BitVec 4) (c : Command) : decodeCode code = .ok c ↔ code = c.code := by
  revert code; cases c <;> decide

end Sys2Proof
end

