-- ==== Sys2Proof/Laws/State.lean ====
section
/-! SUPPORT. For every named update of State, what each field is after it: true by unfolding, so that no later proof unfolds a
record update. -/

namespace Sys2Proof.Machine

variable (s : State)

@[simp] theorem State.clearOutcome_ie : (s.clearOutcome).ie = s.ie := rfl
@[simp] theorem State.clearOutcome_busy : (s.clearOutcome).busy = s.busy := rfl
@[simp] theorem State.clearOutcome_done : (s.clearOutcome).done = false := rfl
@[simp] theorem State.clearOutcome_err : (s.clearOutcome).err = false := rfl
@[simp] theorem State.clearOutcome_errCode : (s.clearOutcome).errCode = 0 := rfl
@[simp] theorem State.clearOutcome_opCode : (s.clearOutcome).opCode = s.opCode := rfl
@[simp] theorem State.clearOutcome_src : (s.clearOutcome).src = s.src := rfl
@[simp] theorem State.clearOutcome_dst : (s.clearOutcome).dst = s.dst := rfl
@[simp] theorem State.clearOutcome_len : (s.clearOutcome).len = s.len := rfl
@[simp] theorem State.clearOutcome_width : (s.clearOutcome).width = s.width := rfl
@[simp] theorem State.clearOutcome_height : (s.clearOutcome).height = s.height := rfl
@[simp] theorem State.clearOutcome_outCount : (s.clearOutcome).outCount = 0 := rfl
@[simp] theorem State.clearOutcome_hdrCmf : (s.clearOutcome).hdrCmf = s.hdrCmf := rfl
@[simp] theorem State.clearOutcome_hdrFlg : (s.clearOutcome).hdrFlg = s.hdrFlg := rfl
@[simp] theorem State.clearOutcome_ibuf : (s.clearOutcome).ibuf = s.ibuf := rfl
@[simp] theorem State.clearOutcome_obuf : (s.clearOutcome).obuf = s.obuf := rfl
@[simp] theorem State.clearOutcome_cfg : (s.clearOutcome).cfg = s.cfg := rfl
@[simp] theorem State.clearOutcome_hardResets : (s.clearOutcome).hardResets = s.hardResets := rfl
@[simp] theorem State.clearOutcome_reply : (s.clearOutcome).reply = s.reply := rfl
@[simp] theorem State.clearOutcome_script : (s.clearOutcome).script = s.script := rfl
@[simp] theorem State.clearOutcome_pos : (s.clearOutcome).pos = s.pos := rfl
@[simp] theorem State.clearOutcome_temps : (s.clearOutcome).temps = s.temps := rfl
@[simp] theorem State.clearOutcome_trace : (s.clearOutcome).trace = s.trace := rfl
@[simp] theorem State.clearOutcome_schedule : (s.clearOutcome).schedule = s.schedule := rfl

@[simp] theorem State.completeOk_ie : (s.completeOk).ie = s.ie := rfl
@[simp] theorem State.completeOk_busy : (s.completeOk).busy = false := rfl
@[simp] theorem State.completeOk_done : (s.completeOk).done = true := rfl
@[simp] theorem State.completeOk_err : (s.completeOk).err = s.err := rfl
@[simp] theorem State.completeOk_errCode : (s.completeOk).errCode = s.errCode := rfl
@[simp] theorem State.completeOk_opCode : (s.completeOk).opCode = s.opCode := rfl
@[simp] theorem State.completeOk_src : (s.completeOk).src = s.src := rfl
@[simp] theorem State.completeOk_dst : (s.completeOk).dst = s.dst := rfl
@[simp] theorem State.completeOk_len : (s.completeOk).len = s.len := rfl
@[simp] theorem State.completeOk_width : (s.completeOk).width = s.width := rfl
@[simp] theorem State.completeOk_height : (s.completeOk).height = s.height := rfl
@[simp] theorem State.completeOk_outCount : (s.completeOk).outCount = s.outCount := rfl
@[simp] theorem State.completeOk_hdrCmf : (s.completeOk).hdrCmf = s.hdrCmf := rfl
@[simp] theorem State.completeOk_hdrFlg : (s.completeOk).hdrFlg = s.hdrFlg := rfl
@[simp] theorem State.completeOk_ibuf : (s.completeOk).ibuf = s.ibuf := rfl
@[simp] theorem State.completeOk_obuf : (s.completeOk).obuf = s.obuf := rfl
@[simp] theorem State.completeOk_cfg : (s.completeOk).cfg = s.cfg := rfl
@[simp] theorem State.completeOk_hardResets : (s.completeOk).hardResets = s.hardResets := rfl
@[simp] theorem State.completeOk_reply : (s.completeOk).reply = s.reply := rfl
@[simp] theorem State.completeOk_script : (s.completeOk).script = s.script := rfl
@[simp] theorem State.completeOk_pos : (s.completeOk).pos = s.pos := rfl
@[simp] theorem State.completeOk_temps : (s.completeOk).temps = s.temps := rfl
@[simp] theorem State.completeOk_trace : (s.completeOk).trace = s.trace := rfl
@[simp] theorem State.completeOk_schedule : (s.completeOk).schedule = s.schedule := rfl

@[simp] theorem State.fail_ie (e : CmdError) : (s.fail e).ie = s.ie := rfl
@[simp] theorem State.fail_busy (e : CmdError) : (s.fail e).busy = false := rfl
@[simp] theorem State.fail_done (e : CmdError) : (s.fail e).done = true := rfl
@[simp] theorem State.fail_err (e : CmdError) : (s.fail e).err = true := rfl
@[simp] theorem State.fail_errCode (e : CmdError) : (s.fail e).errCode = e.code := rfl
@[simp] theorem State.fail_opCode (e : CmdError) : (s.fail e).opCode = s.opCode := rfl
@[simp] theorem State.fail_src (e : CmdError) : (s.fail e).src = s.src := rfl
@[simp] theorem State.fail_dst (e : CmdError) : (s.fail e).dst = s.dst := rfl
@[simp] theorem State.fail_len (e : CmdError) : (s.fail e).len = s.len := rfl
@[simp] theorem State.fail_width (e : CmdError) : (s.fail e).width = s.width := rfl
@[simp] theorem State.fail_height (e : CmdError) : (s.fail e).height = s.height := rfl
@[simp] theorem State.fail_outCount (e : CmdError) : (s.fail e).outCount = s.outCount := rfl
@[simp] theorem State.fail_hdrCmf (e : CmdError) : (s.fail e).hdrCmf = s.hdrCmf := rfl
@[simp] theorem State.fail_hdrFlg (e : CmdError) : (s.fail e).hdrFlg = s.hdrFlg := rfl
@[simp] theorem State.fail_ibuf (e : CmdError) : (s.fail e).ibuf = s.ibuf := rfl
@[simp] theorem State.fail_obuf (e : CmdError) : (s.fail e).obuf = s.obuf := rfl
@[simp] theorem State.fail_cfg (e : CmdError) : (s.fail e).cfg = s.cfg := rfl
@[simp] theorem State.fail_hardResets (e : CmdError) : (s.fail e).hardResets = s.hardResets := rfl
@[simp] theorem State.fail_reply (e : CmdError) : (s.fail e).reply = s.reply := rfl
@[simp] theorem State.fail_script (e : CmdError) : (s.fail e).script = s.script := rfl
@[simp] theorem State.fail_pos (e : CmdError) : (s.fail e).pos = s.pos := rfl
@[simp] theorem State.fail_temps (e : CmdError) : (s.fail e).temps = s.temps := rfl
@[simp] theorem State.fail_trace (e : CmdError) : (s.fail e).trace = s.trace := rfl
@[simp] theorem State.fail_schedule (e : CmdError) : (s.fail e).schedule = s.schedule := rfl

@[simp] theorem State.clearDone_ie : (s.clearDone).ie = s.ie := rfl
@[simp] theorem State.clearDone_busy : (s.clearDone).busy = s.busy := rfl
@[simp] theorem State.clearDone_done : (s.clearDone).done = false := rfl
@[simp] theorem State.clearDone_err : (s.clearDone).err = s.err := rfl
@[simp] theorem State.clearDone_errCode : (s.clearDone).errCode = s.errCode := rfl
@[simp] theorem State.clearDone_opCode : (s.clearDone).opCode = s.opCode := rfl
@[simp] theorem State.clearDone_src : (s.clearDone).src = s.src := rfl
@[simp] theorem State.clearDone_dst : (s.clearDone).dst = s.dst := rfl
@[simp] theorem State.clearDone_len : (s.clearDone).len = s.len := rfl
@[simp] theorem State.clearDone_width : (s.clearDone).width = s.width := rfl
@[simp] theorem State.clearDone_height : (s.clearDone).height = s.height := rfl
@[simp] theorem State.clearDone_outCount : (s.clearDone).outCount = s.outCount := rfl
@[simp] theorem State.clearDone_hdrCmf : (s.clearDone).hdrCmf = s.hdrCmf := rfl
@[simp] theorem State.clearDone_hdrFlg : (s.clearDone).hdrFlg = s.hdrFlg := rfl
@[simp] theorem State.clearDone_ibuf : (s.clearDone).ibuf = s.ibuf := rfl
@[simp] theorem State.clearDone_obuf : (s.clearDone).obuf = s.obuf := rfl
@[simp] theorem State.clearDone_cfg : (s.clearDone).cfg = s.cfg := rfl
@[simp] theorem State.clearDone_hardResets : (s.clearDone).hardResets = s.hardResets := rfl
@[simp] theorem State.clearDone_reply : (s.clearDone).reply = s.reply := rfl
@[simp] theorem State.clearDone_script : (s.clearDone).script = s.script := rfl
@[simp] theorem State.clearDone_pos : (s.clearDone).pos = s.pos := rfl
@[simp] theorem State.clearDone_temps : (s.clearDone).temps = s.temps := rfl
@[simp] theorem State.clearDone_trace : (s.clearDone).trace = s.trace := rfl
@[simp] theorem State.clearDone_schedule : (s.clearDone).schedule = s.schedule := rfl

@[simp] theorem State.beginRun_ie : (s.beginRun).ie = s.ie := rfl
@[simp] theorem State.beginRun_busy : (s.beginRun).busy = true := rfl
@[simp] theorem State.beginRun_done : (s.beginRun).done = s.done := rfl
@[simp] theorem State.beginRun_err : (s.beginRun).err = s.err := rfl
@[simp] theorem State.beginRun_errCode : (s.beginRun).errCode = s.errCode := rfl
@[simp] theorem State.beginRun_opCode : (s.beginRun).opCode = s.opCode := rfl
@[simp] theorem State.beginRun_src : (s.beginRun).src = s.src := rfl
@[simp] theorem State.beginRun_dst : (s.beginRun).dst = s.dst := rfl
@[simp] theorem State.beginRun_len : (s.beginRun).len = s.len := rfl
@[simp] theorem State.beginRun_width : (s.beginRun).width = s.width := rfl
@[simp] theorem State.beginRun_height : (s.beginRun).height = s.height := rfl
@[simp] theorem State.beginRun_outCount : (s.beginRun).outCount = s.outCount := rfl
@[simp] theorem State.beginRun_hdrCmf : (s.beginRun).hdrCmf = s.hdrCmf := rfl
@[simp] theorem State.beginRun_hdrFlg : (s.beginRun).hdrFlg = s.hdrFlg := rfl
@[simp] theorem State.beginRun_ibuf : (s.beginRun).ibuf = s.ibuf := rfl
@[simp] theorem State.beginRun_obuf : (s.beginRun).obuf = s.obuf := rfl
@[simp] theorem State.beginRun_cfg : (s.beginRun).cfg = s.cfg := rfl
@[simp] theorem State.beginRun_hardResets : (s.beginRun).hardResets = s.hardResets := rfl
@[simp] theorem State.beginRun_reply : (s.beginRun).reply = s.reply := rfl
@[simp] theorem State.beginRun_script : (s.beginRun).script = s.script := rfl
@[simp] theorem State.beginRun_pos : (s.beginRun).pos = s.pos := rfl
@[simp] theorem State.beginRun_temps : (s.beginRun).temps = s.temps := rfl
@[simp] theorem State.beginRun_trace : (s.beginRun).trace = s.trace := rfl
@[simp] theorem State.beginRun_schedule : (s.beginRun).schedule = s.schedule := rfl

@[simp] theorem State.writeIbuf_ie (i : Nat) (v : Byte) : (s.writeIbuf i v).ie = s.ie := rfl
@[simp] theorem State.writeIbuf_busy (i : Nat) (v : Byte) : (s.writeIbuf i v).busy = s.busy := rfl
@[simp] theorem State.writeIbuf_done (i : Nat) (v : Byte) : (s.writeIbuf i v).done = s.done := rfl
@[simp] theorem State.writeIbuf_err (i : Nat) (v : Byte) : (s.writeIbuf i v).err = s.err := rfl
@[simp] theorem State.writeIbuf_errCode (i : Nat) (v : Byte) : (s.writeIbuf i v).errCode = s.errCode := rfl
@[simp] theorem State.writeIbuf_opCode (i : Nat) (v : Byte) : (s.writeIbuf i v).opCode = s.opCode := rfl
@[simp] theorem State.writeIbuf_src (i : Nat) (v : Byte) : (s.writeIbuf i v).src = s.src := rfl
@[simp] theorem State.writeIbuf_dst (i : Nat) (v : Byte) : (s.writeIbuf i v).dst = s.dst := rfl
@[simp] theorem State.writeIbuf_len (i : Nat) (v : Byte) : (s.writeIbuf i v).len = s.len := rfl
@[simp] theorem State.writeIbuf_width (i : Nat) (v : Byte) : (s.writeIbuf i v).width = s.width := rfl
@[simp] theorem State.writeIbuf_height (i : Nat) (v : Byte) : (s.writeIbuf i v).height = s.height := rfl
@[simp] theorem State.writeIbuf_outCount (i : Nat) (v : Byte) : (s.writeIbuf i v).outCount = s.outCount := rfl
@[simp] theorem State.writeIbuf_hdrCmf (i : Nat) (v : Byte) : (s.writeIbuf i v).hdrCmf = s.hdrCmf := rfl
@[simp] theorem State.writeIbuf_hdrFlg (i : Nat) (v : Byte) : (s.writeIbuf i v).hdrFlg = s.hdrFlg := rfl
@[simp] theorem State.writeIbuf_ibuf (i : Nat) (v : Byte) : (s.writeIbuf i v).ibuf = Memory.write s.ibuf i v := rfl
@[simp] theorem State.writeIbuf_obuf (i : Nat) (v : Byte) : (s.writeIbuf i v).obuf = s.obuf := rfl
@[simp] theorem State.writeIbuf_cfg (i : Nat) (v : Byte) : (s.writeIbuf i v).cfg = s.cfg := rfl
@[simp] theorem State.writeIbuf_hardResets (i : Nat) (v : Byte) : (s.writeIbuf i v).hardResets = s.hardResets := rfl
@[simp] theorem State.writeIbuf_reply (i : Nat) (v : Byte) : (s.writeIbuf i v).reply = s.reply := rfl
@[simp] theorem State.writeIbuf_script (i : Nat) (v : Byte) : (s.writeIbuf i v).script = s.script := rfl
@[simp] theorem State.writeIbuf_pos (i : Nat) (v : Byte) : (s.writeIbuf i v).pos = s.pos := rfl
@[simp] theorem State.writeIbuf_temps (i : Nat) (v : Byte) : (s.writeIbuf i v).temps = s.temps := rfl
@[simp] theorem State.writeIbuf_trace (i : Nat) (v : Byte) : (s.writeIbuf i v).trace = s.trace := rfl
@[simp] theorem State.writeIbuf_schedule (i : Nat) (v : Byte) : (s.writeIbuf i v).schedule = s.schedule := rfl

@[simp] theorem State.writeObuf_ie (i : Nat) (v : Byte) : (s.writeObuf i v).ie = s.ie := rfl
@[simp] theorem State.writeObuf_busy (i : Nat) (v : Byte) : (s.writeObuf i v).busy = s.busy := rfl
@[simp] theorem State.writeObuf_done (i : Nat) (v : Byte) : (s.writeObuf i v).done = s.done := rfl
@[simp] theorem State.writeObuf_err (i : Nat) (v : Byte) : (s.writeObuf i v).err = s.err := rfl
@[simp] theorem State.writeObuf_errCode (i : Nat) (v : Byte) : (s.writeObuf i v).errCode = s.errCode := rfl
@[simp] theorem State.writeObuf_opCode (i : Nat) (v : Byte) : (s.writeObuf i v).opCode = s.opCode := rfl
@[simp] theorem State.writeObuf_src (i : Nat) (v : Byte) : (s.writeObuf i v).src = s.src := rfl
@[simp] theorem State.writeObuf_dst (i : Nat) (v : Byte) : (s.writeObuf i v).dst = s.dst := rfl
@[simp] theorem State.writeObuf_len (i : Nat) (v : Byte) : (s.writeObuf i v).len = s.len := rfl
@[simp] theorem State.writeObuf_width (i : Nat) (v : Byte) : (s.writeObuf i v).width = s.width := rfl
@[simp] theorem State.writeObuf_height (i : Nat) (v : Byte) : (s.writeObuf i v).height = s.height := rfl
@[simp] theorem State.writeObuf_outCount (i : Nat) (v : Byte) : (s.writeObuf i v).outCount = s.outCount := rfl
@[simp] theorem State.writeObuf_hdrCmf (i : Nat) (v : Byte) : (s.writeObuf i v).hdrCmf = s.hdrCmf := rfl
@[simp] theorem State.writeObuf_hdrFlg (i : Nat) (v : Byte) : (s.writeObuf i v).hdrFlg = s.hdrFlg := rfl
@[simp] theorem State.writeObuf_ibuf (i : Nat) (v : Byte) : (s.writeObuf i v).ibuf = s.ibuf := rfl
@[simp] theorem State.writeObuf_obuf (i : Nat) (v : Byte) : (s.writeObuf i v).obuf = Memory.write s.obuf i v := rfl
@[simp] theorem State.writeObuf_cfg (i : Nat) (v : Byte) : (s.writeObuf i v).cfg = s.cfg := rfl
@[simp] theorem State.writeObuf_hardResets (i : Nat) (v : Byte) : (s.writeObuf i v).hardResets = s.hardResets := rfl
@[simp] theorem State.writeObuf_reply (i : Nat) (v : Byte) : (s.writeObuf i v).reply = s.reply := rfl
@[simp] theorem State.writeObuf_script (i : Nat) (v : Byte) : (s.writeObuf i v).script = s.script := rfl
@[simp] theorem State.writeObuf_pos (i : Nat) (v : Byte) : (s.writeObuf i v).pos = s.pos := rfl
@[simp] theorem State.writeObuf_temps (i : Nat) (v : Byte) : (s.writeObuf i v).temps = s.temps := rfl
@[simp] theorem State.writeObuf_trace (i : Nat) (v : Byte) : (s.writeObuf i v).trace = s.trace := rfl
@[simp] theorem State.writeObuf_schedule (i : Nat) (v : Byte) : (s.writeObuf i v).schedule = s.schedule := rfl

@[simp] theorem State.writeIbufWord_ie (i : Nat) (v : Word) : (s.writeIbufWord i v).ie = s.ie := rfl
@[simp] theorem State.writeIbufWord_busy (i : Nat) (v : Word) : (s.writeIbufWord i v).busy = s.busy := rfl
@[simp] theorem State.writeIbufWord_done (i : Nat) (v : Word) : (s.writeIbufWord i v).done = s.done := rfl
@[simp] theorem State.writeIbufWord_err (i : Nat) (v : Word) : (s.writeIbufWord i v).err = s.err := rfl
@[simp] theorem State.writeIbufWord_errCode (i : Nat) (v : Word) : (s.writeIbufWord i v).errCode = s.errCode := rfl
@[simp] theorem State.writeIbufWord_opCode (i : Nat) (v : Word) : (s.writeIbufWord i v).opCode = s.opCode := rfl
@[simp] theorem State.writeIbufWord_src (i : Nat) (v : Word) : (s.writeIbufWord i v).src = s.src := rfl
@[simp] theorem State.writeIbufWord_dst (i : Nat) (v : Word) : (s.writeIbufWord i v).dst = s.dst := rfl
@[simp] theorem State.writeIbufWord_len (i : Nat) (v : Word) : (s.writeIbufWord i v).len = s.len := rfl
@[simp] theorem State.writeIbufWord_width (i : Nat) (v : Word) : (s.writeIbufWord i v).width = s.width := rfl
@[simp] theorem State.writeIbufWord_height (i : Nat) (v : Word) : (s.writeIbufWord i v).height = s.height := rfl
@[simp] theorem State.writeIbufWord_outCount (i : Nat) (v : Word) : (s.writeIbufWord i v).outCount = s.outCount := rfl
@[simp] theorem State.writeIbufWord_hdrCmf (i : Nat) (v : Word) : (s.writeIbufWord i v).hdrCmf = s.hdrCmf := rfl
@[simp] theorem State.writeIbufWord_hdrFlg (i : Nat) (v : Word) : (s.writeIbufWord i v).hdrFlg = s.hdrFlg := rfl
@[simp] theorem State.writeIbufWord_ibuf (i : Nat) (v : Word) : (s.writeIbufWord i v).ibuf = Memory.writeWord s.ibuf i v := rfl
@[simp] theorem State.writeIbufWord_obuf (i : Nat) (v : Word) : (s.writeIbufWord i v).obuf = s.obuf := rfl
@[simp] theorem State.writeIbufWord_cfg (i : Nat) (v : Word) : (s.writeIbufWord i v).cfg = s.cfg := rfl
@[simp] theorem State.writeIbufWord_hardResets (i : Nat) (v : Word) : (s.writeIbufWord i v).hardResets = s.hardResets := rfl
@[simp] theorem State.writeIbufWord_reply (i : Nat) (v : Word) : (s.writeIbufWord i v).reply = s.reply := rfl
@[simp] theorem State.writeIbufWord_script (i : Nat) (v : Word) : (s.writeIbufWord i v).script = s.script := rfl
@[simp] theorem State.writeIbufWord_pos (i : Nat) (v : Word) : (s.writeIbufWord i v).pos = s.pos := rfl
@[simp] theorem State.writeIbufWord_temps (i : Nat) (v : Word) : (s.writeIbufWord i v).temps = s.temps := rfl
@[simp] theorem State.writeIbufWord_trace (i : Nat) (v : Word) : (s.writeIbufWord i v).trace = s.trace := rfl
@[simp] theorem State.writeIbufWord_schedule (i : Nat) (v : Word) : (s.writeIbufWord i v).schedule = s.schedule := rfl

@[simp] theorem State.writeObufWord_ie (i : Nat) (v : Word) : (s.writeObufWord i v).ie = s.ie := rfl
@[simp] theorem State.writeObufWord_busy (i : Nat) (v : Word) : (s.writeObufWord i v).busy = s.busy := rfl
@[simp] theorem State.writeObufWord_done (i : Nat) (v : Word) : (s.writeObufWord i v).done = s.done := rfl
@[simp] theorem State.writeObufWord_err (i : Nat) (v : Word) : (s.writeObufWord i v).err = s.err := rfl
@[simp] theorem State.writeObufWord_errCode (i : Nat) (v : Word) : (s.writeObufWord i v).errCode = s.errCode := rfl
@[simp] theorem State.writeObufWord_opCode (i : Nat) (v : Word) : (s.writeObufWord i v).opCode = s.opCode := rfl
@[simp] theorem State.writeObufWord_src (i : Nat) (v : Word) : (s.writeObufWord i v).src = s.src := rfl
@[simp] theorem State.writeObufWord_dst (i : Nat) (v : Word) : (s.writeObufWord i v).dst = s.dst := rfl
@[simp] theorem State.writeObufWord_len (i : Nat) (v : Word) : (s.writeObufWord i v).len = s.len := rfl
@[simp] theorem State.writeObufWord_width (i : Nat) (v : Word) : (s.writeObufWord i v).width = s.width := rfl
@[simp] theorem State.writeObufWord_height (i : Nat) (v : Word) : (s.writeObufWord i v).height = s.height := rfl
@[simp] theorem State.writeObufWord_outCount (i : Nat) (v : Word) : (s.writeObufWord i v).outCount = s.outCount := rfl
@[simp] theorem State.writeObufWord_hdrCmf (i : Nat) (v : Word) : (s.writeObufWord i v).hdrCmf = s.hdrCmf := rfl
@[simp] theorem State.writeObufWord_hdrFlg (i : Nat) (v : Word) : (s.writeObufWord i v).hdrFlg = s.hdrFlg := rfl
@[simp] theorem State.writeObufWord_ibuf (i : Nat) (v : Word) : (s.writeObufWord i v).ibuf = s.ibuf := rfl
@[simp] theorem State.writeObufWord_obuf (i : Nat) (v : Word) : (s.writeObufWord i v).obuf = Memory.writeWord s.obuf i v := rfl
@[simp] theorem State.writeObufWord_cfg (i : Nat) (v : Word) : (s.writeObufWord i v).cfg = s.cfg := rfl
@[simp] theorem State.writeObufWord_hardResets (i : Nat) (v : Word) : (s.writeObufWord i v).hardResets = s.hardResets := rfl
@[simp] theorem State.writeObufWord_reply (i : Nat) (v : Word) : (s.writeObufWord i v).reply = s.reply := rfl
@[simp] theorem State.writeObufWord_script (i : Nat) (v : Word) : (s.writeObufWord i v).script = s.script := rfl
@[simp] theorem State.writeObufWord_pos (i : Nat) (v : Word) : (s.writeObufWord i v).pos = s.pos := rfl
@[simp] theorem State.writeObufWord_temps (i : Nat) (v : Word) : (s.writeObufWord i v).temps = s.temps := rfl
@[simp] theorem State.writeObufWord_trace (i : Nat) (v : Word) : (s.writeObufWord i v).trace = s.trace := rfl
@[simp] theorem State.writeObufWord_schedule (i : Nat) (v : Word) : (s.writeObufWord i v).schedule = s.schedule := rfl

@[simp] theorem State.answer_ie (r : Reply) : (s.answer r).ie = s.ie := rfl
@[simp] theorem State.answer_busy (r : Reply) : (s.answer r).busy = s.busy := rfl
@[simp] theorem State.answer_done (r : Reply) : (s.answer r).done = s.done := rfl
@[simp] theorem State.answer_err (r : Reply) : (s.answer r).err = s.err := rfl
@[simp] theorem State.answer_errCode (r : Reply) : (s.answer r).errCode = s.errCode := rfl
@[simp] theorem State.answer_opCode (r : Reply) : (s.answer r).opCode = s.opCode := rfl
@[simp] theorem State.answer_src (r : Reply) : (s.answer r).src = s.src := rfl
@[simp] theorem State.answer_dst (r : Reply) : (s.answer r).dst = s.dst := rfl
@[simp] theorem State.answer_len (r : Reply) : (s.answer r).len = s.len := rfl
@[simp] theorem State.answer_width (r : Reply) : (s.answer r).width = s.width := rfl
@[simp] theorem State.answer_height (r : Reply) : (s.answer r).height = s.height := rfl
@[simp] theorem State.answer_outCount (r : Reply) : (s.answer r).outCount = s.outCount := rfl
@[simp] theorem State.answer_hdrCmf (r : Reply) : (s.answer r).hdrCmf = s.hdrCmf := rfl
@[simp] theorem State.answer_hdrFlg (r : Reply) : (s.answer r).hdrFlg = s.hdrFlg := rfl
@[simp] theorem State.answer_ibuf (r : Reply) : (s.answer r).ibuf = s.ibuf := rfl
@[simp] theorem State.answer_obuf (r : Reply) : (s.answer r).obuf = s.obuf := rfl
@[simp] theorem State.answer_cfg (r : Reply) : (s.answer r).cfg = s.cfg := rfl
@[simp] theorem State.answer_hardResets (r : Reply) : (s.answer r).hardResets = s.hardResets := rfl
@[simp] theorem State.answer_reply (r : Reply) : (s.answer r).reply = some r := rfl
@[simp] theorem State.answer_script (r : Reply) : (s.answer r).script = s.script := rfl
@[simp] theorem State.answer_pos (r : Reply) : (s.answer r).pos = s.pos := rfl
@[simp] theorem State.answer_temps (r : Reply) : (s.answer r).temps = s.temps := rfl
@[simp] theorem State.answer_trace (r : Reply) : (s.answer r).trace = s.trace := rfl
@[simp] theorem State.answer_schedule (r : Reply) : (s.answer r).schedule = s.schedule := rfl

@[simp] theorem State.softReset_ie : (s.softReset).ie = false := rfl
@[simp] theorem State.softReset_busy : (s.softReset).busy = false := rfl
@[simp] theorem State.softReset_done : (s.softReset).done = false := rfl
@[simp] theorem State.softReset_err : (s.softReset).err = false := rfl
@[simp] theorem State.softReset_errCode : (s.softReset).errCode = 0 := rfl
@[simp] theorem State.softReset_opCode : (s.softReset).opCode = 0 := rfl
@[simp] theorem State.softReset_src : (s.softReset).src = 0 := rfl
@[simp] theorem State.softReset_dst : (s.softReset).dst = 0 := rfl
@[simp] theorem State.softReset_len : (s.softReset).len = 0 := rfl
@[simp] theorem State.softReset_width : (s.softReset).width = 0 := rfl
@[simp] theorem State.softReset_height : (s.softReset).height = 0 := rfl
@[simp] theorem State.softReset_outCount : (s.softReset).outCount = 0 := rfl
@[simp] theorem State.softReset_hdrCmf : (s.softReset).hdrCmf = 0 := rfl
@[simp] theorem State.softReset_hdrFlg : (s.softReset).hdrFlg = 0 := rfl
@[simp] theorem State.softReset_ibuf : (s.softReset).ibuf = s.ibuf := rfl
@[simp] theorem State.softReset_obuf : (s.softReset).obuf = s.obuf := rfl
@[simp] theorem State.softReset_cfg : (s.softReset).cfg = s.cfg := rfl
@[simp] theorem State.softReset_hardResets : (s.softReset).hardResets = s.hardResets := rfl
@[simp] theorem State.softReset_reply : (s.softReset).reply = s.reply := rfl
@[simp] theorem State.softReset_script : (s.softReset).script = s.script := rfl
@[simp] theorem State.softReset_pos : (s.softReset).pos = s.pos := rfl
@[simp] theorem State.softReset_temps : (s.softReset).temps = s.temps := rfl
@[simp] theorem State.softReset_trace : (s.softReset).trace = s.trace := rfl
@[simp] theorem State.softReset_schedule : (s.softReset).schedule = s.schedule := rfl

@[simp] theorem State.hardReset_ie : (s.hardReset).ie = false := rfl
@[simp] theorem State.hardReset_busy : (s.hardReset).busy = false := rfl
@[simp] theorem State.hardReset_done : (s.hardReset).done = false := rfl
@[simp] theorem State.hardReset_err : (s.hardReset).err = false := rfl
@[simp] theorem State.hardReset_errCode : (s.hardReset).errCode = 0 := rfl
@[simp] theorem State.hardReset_opCode : (s.hardReset).opCode = 0 := rfl
@[simp] theorem State.hardReset_src : (s.hardReset).src = 0 := rfl
@[simp] theorem State.hardReset_dst : (s.hardReset).dst = 0 := rfl
@[simp] theorem State.hardReset_len : (s.hardReset).len = 0 := rfl
@[simp] theorem State.hardReset_width : (s.hardReset).width = 0 := rfl
@[simp] theorem State.hardReset_height : (s.hardReset).height = 0 := rfl
@[simp] theorem State.hardReset_outCount : (s.hardReset).outCount = 0 := rfl
@[simp] theorem State.hardReset_hdrCmf : (s.hardReset).hdrCmf = 0 := rfl
@[simp] theorem State.hardReset_hdrFlg : (s.hardReset).hdrFlg = 0 := rfl
@[simp] theorem State.hardReset_ibuf : (s.hardReset).ibuf = [] := rfl
@[simp] theorem State.hardReset_obuf : (s.hardReset).obuf = [] := rfl
@[simp] theorem State.hardReset_cfg : (s.hardReset).cfg = s.cfg := rfl
@[simp] theorem State.hardReset_hardResets : (s.hardReset).hardResets = s.hardResets + 1 := rfl
@[simp] theorem State.hardReset_reply : (s.hardReset).reply = s.reply := rfl
@[simp] theorem State.hardReset_script : (s.hardReset).script = s.script := rfl
@[simp] theorem State.hardReset_pos : (s.hardReset).pos = s.pos := rfl
@[simp] theorem State.hardReset_temps : (s.hardReset).temps = s.temps := rfl
@[simp] theorem State.hardReset_trace : (s.hardReset).trace = s.trace := rfl
@[simp] theorem State.hardReset_schedule : (s.hardReset).schedule = s.schedule := rfl

@[simp] theorem State.advance_ie (n : Nat) : (s.advance n).ie = s.ie := rfl
@[simp] theorem State.advance_busy (n : Nat) : (s.advance n).busy = s.busy := rfl
@[simp] theorem State.advance_done (n : Nat) : (s.advance n).done = s.done := rfl
@[simp] theorem State.advance_err (n : Nat) : (s.advance n).err = s.err := rfl
@[simp] theorem State.advance_errCode (n : Nat) : (s.advance n).errCode = s.errCode := rfl
@[simp] theorem State.advance_opCode (n : Nat) : (s.advance n).opCode = s.opCode := rfl
@[simp] theorem State.advance_src (n : Nat) : (s.advance n).src = s.src := rfl
@[simp] theorem State.advance_dst (n : Nat) : (s.advance n).dst = s.dst := rfl
@[simp] theorem State.advance_len (n : Nat) : (s.advance n).len = s.len := rfl
@[simp] theorem State.advance_width (n : Nat) : (s.advance n).width = s.width := rfl
@[simp] theorem State.advance_height (n : Nat) : (s.advance n).height = s.height := rfl
@[simp] theorem State.advance_outCount (n : Nat) : (s.advance n).outCount = s.outCount + BitVec.ofNat 21 n := rfl
@[simp] theorem State.advance_hdrCmf (n : Nat) : (s.advance n).hdrCmf = s.hdrCmf := rfl
@[simp] theorem State.advance_hdrFlg (n : Nat) : (s.advance n).hdrFlg = s.hdrFlg := rfl
@[simp] theorem State.advance_ibuf (n : Nat) : (s.advance n).ibuf = s.ibuf := rfl
@[simp] theorem State.advance_obuf (n : Nat) : (s.advance n).obuf = s.obuf := rfl
@[simp] theorem State.advance_cfg (n : Nat) : (s.advance n).cfg = s.cfg := rfl
@[simp] theorem State.advance_hardResets (n : Nat) : (s.advance n).hardResets = s.hardResets := rfl
@[simp] theorem State.advance_reply (n : Nat) : (s.advance n).reply = s.reply := rfl
@[simp] theorem State.advance_script (n : Nat) : (s.advance n).script = s.script := rfl
@[simp] theorem State.advance_pos (n : Nat) : (s.advance n).pos = s.pos := rfl
@[simp] theorem State.advance_temps (n : Nat) : (s.advance n).temps = s.temps := rfl
@[simp] theorem State.advance_trace (n : Nat) : (s.advance n).trace = s.trace := rfl
@[simp] theorem State.advance_schedule (n : Nat) : (s.advance n).schedule = s.schedule := rfl

@[simp] theorem State.captureHdr_ie : (s.captureHdr).ie = s.ie := rfl
@[simp] theorem State.captureHdr_busy : (s.captureHdr).busy = s.busy := rfl
@[simp] theorem State.captureHdr_done : (s.captureHdr).done = s.done := rfl
@[simp] theorem State.captureHdr_err : (s.captureHdr).err = s.err := rfl
@[simp] theorem State.captureHdr_errCode : (s.captureHdr).errCode = s.errCode := rfl
@[simp] theorem State.captureHdr_opCode : (s.captureHdr).opCode = s.opCode := rfl
@[simp] theorem State.captureHdr_src : (s.captureHdr).src = s.src := rfl
@[simp] theorem State.captureHdr_dst : (s.captureHdr).dst = s.dst := rfl
@[simp] theorem State.captureHdr_len : (s.captureHdr).len = s.len := rfl
@[simp] theorem State.captureHdr_width : (s.captureHdr).width = s.width := rfl
@[simp] theorem State.captureHdr_height : (s.captureHdr).height = s.height := rfl
@[simp] theorem State.captureHdr_outCount : (s.captureHdr).outCount = s.outCount := rfl
@[simp] theorem State.captureHdr_hdrCmf : (s.captureHdr).hdrCmf = s.ibufByte s.src.toNat := rfl
@[simp] theorem State.captureHdr_hdrFlg : (s.captureHdr).hdrFlg = s.ibufByte (s.src.toNat + 1) := rfl
@[simp] theorem State.captureHdr_ibuf : (s.captureHdr).ibuf = s.ibuf := rfl
@[simp] theorem State.captureHdr_obuf : (s.captureHdr).obuf = s.obuf := rfl
@[simp] theorem State.captureHdr_cfg : (s.captureHdr).cfg = s.cfg := rfl
@[simp] theorem State.captureHdr_hardResets : (s.captureHdr).hardResets = s.hardResets := rfl
@[simp] theorem State.captureHdr_reply : (s.captureHdr).reply = s.reply := rfl
@[simp] theorem State.captureHdr_script : (s.captureHdr).script = s.script := rfl
@[simp] theorem State.captureHdr_pos : (s.captureHdr).pos = s.pos := rfl
@[simp] theorem State.captureHdr_temps : (s.captureHdr).temps = s.temps := rfl
@[simp] theorem State.captureHdr_trace : (s.captureHdr).trace = s.trace := rfl
@[simp] theorem State.captureHdr_schedule : (s.captureHdr).schedule = s.schedule := rfl

end Sys2Proof.Machine
end

