-- ==== Sys2Proof/Laws/Memory.lean ====
section
/-! SUPPORT. The laws of the buffers: a read after a write, the canonical form that every write keeps, and the bytes of a
big-endian word (20_memory.md R63, R64). -/

namespace Sys2Proof.Machine

/-! ## One byte -/

theorem Memory.read_write (m : Memory) (a b : Nat) (v : Byte) :
    Memory.read (Memory.write m a v) b = if b = a then some v else Memory.read m b := by
  induction m with
  | nil => simp only [Memory.write, Memory.read, eq_comm]
  | cons x rest ih =>
    obtain ⟨k, w⟩ := x
    simp only [Memory.write]
    rcases Nat.lt_trichotomy a k with h | h | h
    · rw [if_pos h]
      simp only [Memory.read, eq_comm (a := a)]
    · subst h
      rw [if_neg (Nat.lt_irrefl _), if_pos rfl]
      simp only [Memory.read, eq_comm (a := a)]
      split_ifs <;> rfl
    · rw [if_neg (by omega), if_neg (by omega)]
      simp only [Memory.read, ih]
      split_ifs <;> first | rfl | omega

theorem Memory.write_mem (m : Memory) (a : Nat) (v : Byte) (x : Host.Cell) (h : x ∈ Memory.write m a v) :
    x = (a, v) ∨ x ∈ m := by
  induction m with
  | nil => simpa [Memory.write] using h
  | cons y rest ih =>
    obtain ⟨k, w⟩ := y
    simp only [Memory.write] at h
    split_ifs at h with h1 h2
    · simpa using h
    · rcases List.mem_cons.mp h with h | h
      · exact .inl h
      · exact .inr (List.mem_cons_of_mem _ h)
    · rcases List.mem_cons.mp h with h | h
      · exact .inr (h ▸ List.mem_cons_self)
      · exact (ih h).imp_right (List.mem_cons_of_mem _)

/-- Every write keeps the canonical form. -/
theorem Memory.write_wf (m : Memory) (a : Nat) (v : Byte) (h : Memory.wf m) : Memory.wf (Memory.write m a v) := by
  induction m with
  | nil => simp [Memory.write]
  | cons y rest ih =>
    obtain ⟨k, w⟩ := y
    obtain ⟨hk, hrest⟩ := List.pairwise_cons.mp h
    simp only [Memory.write]
    split_ifs with h1 h2
    · refine List.pairwise_cons.mpr ⟨fun x hx => ?_, h⟩
      rcases List.mem_cons.mp hx with rfl | hx
      · exact h1
      · exact h1.trans (hk x hx)
    · subst h2
      exact List.pairwise_cons.mpr ⟨hk, hrest⟩
    · refine List.pairwise_cons.mpr ⟨fun x hx => ?_, ih hrest⟩
      rcases Memory.write_mem rest a v x hx with rfl | hx
      · show k < a
        omega
      · exact hk x hx

/-- A write inside a buffer's size leaves every listed byte inside it. -/
theorem Memory.write_backed (m : Memory) (a n : Nat) (v : Byte) (ha : a < n) (h : ∀ c ∈ m, c.1 < n) :
    ∀ c ∈ Memory.write m a v, c.1 < n := fun c hc => by
  rcases Memory.write_mem m a v c hc with rfl | hc
  · exact ha
  · exact h c hc

@[simp] theorem State.ibufByte_writeIbuf (s : State) (i j : Nat) (v : Byte) :
    (s.writeIbuf i v).ibufByte j = if j = i then v else s.ibufByte j := by
  simp only [State.ibufByte, State.writeIbuf_ibuf, State.writeIbuf_hardResets, Memory.read_write]
  split_ifs <;> rfl

@[simp] theorem State.obufByte_writeObuf (s : State) (i j : Nat) (v : Byte) :
    (s.writeObuf i v).obufByte j = if j = i then v else s.obufByte j := by
  simp only [State.obufByte, State.writeObuf_obuf, State.writeObuf_hardResets, Memory.read_write]
  split_ifs <;> rfl

@[simp] theorem State.ibufByte_writeObuf (s : State) (i j : Nat) (v : Byte) :
    (s.writeObuf i v).ibufByte j = s.ibufByte j := rfl

@[simp] theorem State.obufByte_writeIbuf (s : State) (i j : Nat) (v : Byte) :
    (s.writeIbuf i v).obufByte j = s.obufByte j := rfl

/-- A byte read depends on its buffer and on the draw of free bytes only. -/
theorem State.ibufByte_congr {s t : State} (h : t.ibuf = s.ibuf) (hr : t.hardResets = s.hardResets) (i : Nat) :
    t.ibufByte i = s.ibufByte i := by simp [State.ibufByte, h, hr]

theorem State.obufByte_congr {s t : State} (h : t.obuf = s.obuf) (hr : t.hardResets = s.hardResets) (i : Nat) :
    t.obufByte i = s.obufByte i := by simp [State.obufByte, h, hr]

/-! ## One word -/

/-- The value of `{a, b, c, d}` (00_scope.md R11). -/
theorem wordOf_toNat (a b c d : Byte) :
    (wordOf a b c d).toNat = a.toNat * 2 ^ 24 + b.toNat * 2 ^ 16 + c.toNat * 2 ^ 8 + d.toNat := by
  have := a.isLt; have := b.isLt; have := c.isLt; have := d.isLt
  simp only [wordOf, BitVec.toNat_append]
  rw [← Nat.shiftLeft_add_eq_or_of_lt (by omega), ← Nat.shiftLeft_add_eq_or_of_lt (by omega),
    ← Nat.shiftLeft_add_eq_or_of_lt (by omega)]
  simp only [Nat.shiftLeft_eq]
  omega

/-- The four bytes of a word, put together again. -/
theorem wordOf_byteOf (v : Word) : wordOf (byteOf v 0) (byteOf v 1) (byteOf v 2) (byteOf v 3) = v := by
  apply BitVec.eq_of_toNat_eq
  have := v.isLt
  simp only [wordOf_toNat, byteOf, BitVec.extractLsb'_toNat, Nat.shiftRight_eq_div_pow]
  omega

/-- Big-endian: byte `j` of `{a, b, c, d}`. -/
theorem byteOf_wordOf (a b c d : Byte) :
    byteOf (wordOf a b c d) 0 = a ∧ byteOf (wordOf a b c d) 1 = b ∧
      byteOf (wordOf a b c d) 2 = c ∧ byteOf (wordOf a b c d) 3 = d := by
  have := a.isLt; have := b.isLt; have := c.isLt; have := d.isLt
  refine ⟨?_, ?_, ?_, ?_⟩ <;> apply BitVec.eq_of_toNat_eq <;>
    simp only [byteOf, BitVec.extractLsb'_toNat, Nat.shiftRight_eq_div_pow, wordOf_toNat] <;> omega

/-- A byte after a word write (R64). -/
theorem Memory.read_writeWord (m : Memory) (i j : Nat) (v : Word) :
    Memory.read (Memory.writeWord m i v) j =
      if i ≤ j ∧ j < i + 4 then some (byteOf v (j - i)) else Memory.read m j := by
  simp only [Memory.writeWord, Memory.read_write]
  rcases Nat.lt_or_ge j i with h | h
  · rw [if_neg (by omega), if_neg (by omega), if_neg (by omega), if_neg (by omega), if_neg (by omega)]
  · obtain ⟨d, rfl⟩ := Nat.exists_eq_add_of_le h
    match d with
    | 0 | 1 | 2 | 3 => simp
    | d + 4 =>
      rw [if_neg (by omega), if_neg (by omega), if_neg (by omega), if_neg (by omega), if_neg (by omega)]

theorem Memory.writeWord_wf (m : Memory) (i : Nat) (v : Word) (h : Memory.wf m) : Memory.wf (Memory.writeWord m i v) :=
  Memory.write_wf _ _ _ (Memory.write_wf _ _ _ (Memory.write_wf _ _ _ (Memory.write_wf _ _ _ h)))

theorem Memory.writeWord_backed (m : Memory) (i n : Nat) (v : Word) (hi : i + 3 < n) (h : ∀ c ∈ m, c.1 < n) :
    ∀ c ∈ Memory.writeWord m i v, c.1 < n :=
  Memory.write_backed _ _ _ _ (by omega) (Memory.write_backed _ _ _ _ (by omega)
    (Memory.write_backed _ _ _ _ (by omega) (Memory.write_backed _ _ _ _ (by omega) h)))

/-- `MemWrite(IBUF, i, 4, v)`, byte by byte (R64). -/
theorem State.ibufByte_writeIbufWord (s : State) (i j : Nat) (v : Word) :
    (s.writeIbufWord i v).ibufByte j = if i ≤ j ∧ j < i + 4 then byteOf v (j - i) else s.ibufByte j := by
  simp only [State.ibufByte, State.writeIbufWord, Memory.read_writeWord]
  split_ifs <;> rfl

/-- `MemWrite(OBUF, i, 4, v)`, byte by byte (R64). -/
theorem State.obufByte_writeObufWord (s : State) (i j : Nat) (v : Word) :
    (s.writeObufWord i v).obufByte j = if i ≤ j ∧ j < i + 4 then byteOf v (j - i) else s.obufByte j := by
  simp only [State.obufByte, State.writeObufWord, Memory.read_writeWord]
  split_ifs <;> rfl

/-- The buffers after reset, with nothing listed, are canonical. -/
theorem reset_buffers_wf : Memory.wf State.reset.ibuf ∧ Memory.wf State.reset.obuf := by decide

end Sys2Proof.Machine
end

