-- ==== Sys2Proof/Laws/Host.lean ====
section
/-! SUPPORT. What a host access can do: where its offset leads (20_memory.md R61), which register it names (10_state.md R21), and
the outcome of a register access and of an access that gets SLVERR. -/

namespace Sys2Proof.Machine

/-! ## The map of offsets -/

theorem locate_registers (p : Params) (off : Offset) (h : off.toNat < 0x30) : locate p off = .registers := by
  simp [locate, h]

theorem locate_ibuf (p : Params) (off : Offset) (i : Nat) (h : off.toNat = 0x100000 + i) (hi : i < p.ibufBytes) :
    locate p off = .ibuf i := by
  unfold locate
  rw [if_neg (by omega), if_pos (by omega), h, Nat.add_sub_cancel_left]

/-- The bounds of 00_scope.md R7. -/
theorem Params.bounds {p : Params} (h : p.valid = true) :
    p.base % 0x400000 = 0 ∧ p.ibufBytes % 4 = 0 ∧ 8 ≤ p.ibufBytes ∧ p.ibufBytes ≤ 0x100000 ∧
      p.obufBytes % 4 = 0 ∧ 8 ≤ p.obufBytes ∧ p.obufBytes ≤ 0x100000 := by
  simp only [Params.valid, Bool.and_eq_true, decide_eq_true_eq, beq_iff_eq] at h
  omega

theorem locate_obuf (p : Params) (off : Offset) (i : Nat) (hp : p.valid = true) (h : off.toNat = 0x200000 + i)
    (hi : i < p.obufBytes) : locate p off = .obuf i := by
  have := Params.bounds hp
  unfold locate
  rw [if_neg (by omega), if_neg (by omega), if_pos (by omega), h, Nat.add_sub_cancel_left]

/-- Everything the map can answer, and what each answer says of the offset. -/
theorem locate_cases (p : Params) (off : Offset) :
    (locate p off = .registers ∧ InRegisters off) ∨
      (∃ i, locate p off = .ibuf i ∧ off.toNat = 0x100000 + i ∧ i < p.ibufBytes) ∨
      (∃ i, locate p off = .obuf i ∧ off.toNat = 0x200000 + i ∧ i < p.obufBytes) ∨
      (locate p off = .unmapped ∧ ¬InRegisters off ∧ ¬InBuffers p off) := by
  unfold locate InRegisters InBuffers
  split_ifs with h1 h2 h3
  · exact .inl ⟨rfl, h1⟩
  · exact .inr (.inl ⟨_, rfl, by omega, by omega⟩)
  · exact .inr (.inr (.inl ⟨_, rfl, by omega, by omega⟩))
  · exact .inr (.inr (.inr ⟨rfl, by omega, by omega⟩))

theorem regOffset_lt (r : Reg) : (regOffset r).toNat < 0x30 := by cases r <;> decide

theorem regAt_regOffset (r : Reg) : regAt (regOffset r).toNat = some r := by cases r <;> decide

/-- Every aligned offset of the register file is a register's, and no other is. -/
theorem regAt_cases (n : Nat) (hn : n < 0x30) :
    (∃ r, regAt n = some r ∧ n = (regOffset r).toNat) ∨ (regAt n = none ∧ n % 4 ≠ 0) := by
  have h : ∀ n < 0x30, (n % 4 = 0 → ∃ r ∈ regTable, regAt n = some r ∧ n = (regOffset r).toNat) ∧
      (n % 4 ≠ 0 → regAt n = none) := by decide
  by_cases h4 : n % 4 = 0
  · obtain ⟨r, _, hr⟩ := (h n hn).1 h4
    exact .inl ⟨r, hr⟩
  · exact .inr ⟨(h n hn).2 h4, h4⟩

/-! ## Register accesses -/

theorem exec_rd32_reg (r : Reg) (s : State) :
    exec (.rd32 (regOffset r)) s = .next (s.answer (.data (readReg s r))) := by
  show Host.Outcome.next (s.answer (readReply32 s (regOffset r))) = _
  simp only [readReply32, locate_registers _ _ (regOffset_lt r), regAt_regOffset]

theorem exec_wr32_reg (r : Reg) (v : Word) (s : State) :
    exec (.wr32 (regOffset r) v) s = .next (s.answerWrite (writeReg s r v)) := by
  show Host.Outcome.next (s.answerWrite (writeEffect32 s (regOffset r) v)) = _
  simp only [writeEffect32, locate_registers _ _ (regOffset_lt r), regAt_regOffset]

/-- The value of every register, field by field (10_state.md R22 to R33). -/
theorem readReg_toNat (s : State) (r : Reg) :
    (readReg s r).toNat = match r with
      | .id => 0x53560001
      | .ctrl => s.ie.toNat * 2 ^ 8
      | .status =>
        s.busy.toNat + s.done.toNat * 2 + s.err.toNat * 4 + (s.done && s.ie).toNat * 8 + s.errCode.toNat * 2 ^ 8
      | .op => s.opCode.toNat
      | .src => s.src.toNat
      | .dst => s.dst.toNat
      | .width => s.width.toNat
      | .height => s.height.toNat
      | .len => s.len.toNat
      | .rowBytes => (s.width.toNat + 31) / 32 * 4
      | .outCount => s.outCount.toNat
      | .hdr => s.hdrCmf.toNat * 2 ^ 8 + s.hdrFlg.toNat := by
  have h1 := s.opCode.isLt; have h2 := s.width.isLt; have h3 := s.height.isLt; have h4 := s.outCount.isLt
  have h5 := s.hdrFlg.isLt; have h6 := s.errCode.isLt; have h7 := s.hdrCmf.isLt
  cases r <;> simp only [readReg, BitVec.toNat_setWidth, BitVec.toNat_ofNat]
  case id => rfl
  case ctrl => cases s.ie <;> rfl
  case status =>
    have e : ∀ (b d e i : Bool) (c : BitVec 4),
        (0#20 ++ c ++ 0#4 ++ BitVec.ofBool (d && i) ++ BitVec.ofBool e ++ BitVec.ofBool d ++ BitVec.ofBool b).toNat =
          b.toNat + d.toNat * 2 + e.toNat * 4 + (d && i).toNat * 8 + c.toNat * 2 ^ 8 := by decide
    exact e s.busy s.done s.err s.ie s.errCode
  case rowBytes => simp only [rowBytes, paddedWidth]; omega
  case hdr =>
    simp only [BitVec.toNat_append]
    rw [← Nat.shiftLeft_add_eq_or_of_lt (by omega), BitVec.toNat_ofNat, Nat.zero_mod, Nat.zero_shiftLeft, Nat.zero_or]
    simp only [Nat.shiftLeft_eq]
  all_goals omega

theorem whenIdle_idle {s : State} (hb : s.busy = false) (t : State) : whenIdle s t = some t := by simp [whenIdle, hb]

theorem whenIdle_busy {s : State} (hb : s.busy = true) (t : State) : whenIdle s t = none := by simp [whenIdle, hb]

/-- A register write gets SLVERR exactly when it is locked out while BUSY (40_command.md R119). -/
theorem writeReg_none (s : State) (r : Reg) (v : Word) :
    writeReg s r v = none ↔
      s.busy = true ∧ (r = .op ∨ r = .src ∨ r = .dst ∨ r = .width ∨ r = .height ∨ r = .len ∨
        (r = .ctrl ∧ v.getLsbD 0 = true ∧ v.getLsbD 1 = false)) := by
  cases r <;> cases hb : s.busy <;> simp [writeReg, whenIdle, hb, writeCtrl]
  · split_ifs <;> simp
  · split_ifs <;> simp_all

/-- Every effect a register write can have, when it has one. -/
theorem writeReg_some {s t : State} {r : Reg} {v : Word} (h : writeReg s r v = some t) :
    t = s ∨ t = s.clearDone ∨ t = s.softReset ∨ t = { s with ie := v.getLsbD 8 } ∨
      (s.busy = false ∧ t = State.accept { s with ie := v.getLsbD 8 }) ∨
      (s.busy = false ∧ ∃ (c : BitVec 4) (a b l : Word) (w k : BitVec 16),
        t = { s with opCode := c, src := a, dst := b, len := l, width := w, height := k }) := by
  cases r <;> simp only [writeReg, whenIdle, Option.some.injEq] at h
  case id | rowBytes | outCount | hdr => exact .inl h.symm
  case status =>
    split_ifs at h
    · exact .inr (.inl h.symm)
    · exact .inl h.symm
  case ctrl =>
    unfold writeCtrl at h
    split_ifs at h with h1 h2 h3
    · exact .inr (.inr (.inl (Option.some.inj h).symm))
    · refine .inr (.inr (.inr (.inr (.inl ⟨?_, (Option.some.inj h).symm⟩))))
      simpa [h3] using h2
    · exact .inr (.inr (.inr (.inl (Option.some.inj h).symm)))
  all_goals
    split_ifs at h with hb
    exact .inr (.inr (.inr (.inr (.inr ⟨by simpa using hb, _, _, _, _, _, _, (Option.some.inj h).symm⟩))))

/-! ## Any access -/

/-- Everything a host access can do: answer SLVERR and change nothing else; answer a read and change nothing else; write one
buffer byte or word of an idle block; or have a register write's effect. -/
theorem exec_access_cases (s : State) (i : Instr) (a : HostAccess) (h : hostAccess i = some a) :
    exec i s = .next (s.answer .slverr) ∨ (∃ v, exec i s = .next (s.answer (.data v))) ∨
      (s.busy = false ∧
        ((∃ k v, k < s.cfg.ibufBytes ∧ exec i s = .next ((s.writeIbuf k v).answer .done)) ∨
          (∃ k v, k < s.cfg.obufBytes ∧ exec i s = .next ((s.writeObuf k v).answer .done)) ∨
          (∃ k v, k < s.cfg.ibufBytes ∧ k % 4 = 0 ∧ exec i s = .next ((s.writeIbufWord k v).answer .done)) ∨
          (∃ k v, k < s.cfg.obufBytes ∧ k % 4 = 0 ∧ exec i s = .next ((s.writeObufWord k v).answer .done)))) ∨
      (∃ r v t, writeReg s r v = some t ∧ exec i s = .next (t.answer .done)) := by
  cases i <;> simp only [hostAccess, reduceCtorEq] at h
  case rd16 | wr16 => exact .inl rfl
  case rd8 off =>
    simp only [exec, execRd8, readReply8]
    rcases locate_cases s.cfg off with ⟨hl, _⟩ | ⟨k, hl, _⟩ | ⟨k, hl, _⟩ | ⟨hl, _⟩ <;> rw [hl]
    · exact .inl rfl
    · cases s.busy
      · exact .inr (.inl ⟨_, rfl⟩)
      · exact .inl rfl
    · cases s.busy
      · exact .inr (.inl ⟨_, rfl⟩)
      · exact .inl rfl
    · exact .inl rfl
  case rd32 off =>
    simp only [exec, execRd32, readReply32]
    rcases locate_cases s.cfg off with ⟨hl, _⟩ | ⟨k, hl, _⟩ | ⟨k, hl, _⟩ | ⟨hl, _⟩ <;> rw [hl]
    · cases regAt off.toNat
      · exact .inl rfl
      · exact .inr (.inl ⟨_, rfl⟩)
    · by_cases hb : (s.busy || decide (k % 4 ≠ 0)) = true
      · exact .inl (by simp only [if_pos hb])
      · exact .inr (.inl ⟨_, by simp only [if_neg hb]; rfl⟩)
    · by_cases hb : (s.busy || decide (k % 4 ≠ 0)) = true
      · exact .inl (by simp only [if_pos hb])
      · exact .inr (.inl ⟨_, by simp only [if_neg hb]; rfl⟩)
    · exact .inl rfl
  case wr8 off v =>
    simp only [exec, execWr8, writeEffect8]
    rcases locate_cases s.cfg off with ⟨hl, _⟩ | ⟨k, hl, _, hk⟩ | ⟨k, hl, _, hk⟩ | ⟨hl, _⟩ <;> rw [hl]
    · exact .inl rfl
    · cases hb : s.busy
      · exact .inr (.inr (.inl ⟨rfl, .inl ⟨k, _, hk, rfl⟩⟩))
      · exact .inl rfl
    · cases hb : s.busy
      · exact .inr (.inr (.inl ⟨rfl, .inr (.inl ⟨k, _, hk, rfl⟩)⟩))
      · exact .inl rfl
    · exact .inl rfl
  case wr32 off v =>
    simp only [exec, execWr32, writeEffect32]
    rcases locate_cases s.cfg off with ⟨hl, _⟩ | ⟨k, hl, _, hk⟩ | ⟨k, hl, _, hk⟩ | ⟨hl, _⟩ <;> rw [hl]
    · cases regAt off.toNat with
      | none => exact .inl rfl
      | some r =>
        cases hw : writeReg s r v with
        | none => exact .inl (by simp only [hw, State.answerWrite])
        | some t => exact .inr (.inr (.inr ⟨r, v, t, hw, by simp only [hw, State.answerWrite]⟩))
    · cases hb : s.busy <;> by_cases h4 : k % 4 = 0
      · exact .inr (.inr (.inl ⟨rfl, .inr (.inr (.inl ⟨k, v, hk, h4, by simp [h4, State.answerWrite]⟩))⟩))
      all_goals exact .inl (by simp [h4, State.answerWrite])
    · cases hb : s.busy <;> by_cases h4 : k % 4 = 0
      · exact .inr (.inr (.inl ⟨rfl, .inr (.inr (.inr ⟨k, v, hk, h4, by simp [h4, State.answerWrite]⟩))⟩))
      all_goals exact .inl (by simp [h4, State.answerWrite])
    · exact .inl rfl

/-- The same, as the state an access leaves. -/
theorem exec_access_inv {s w : State} {i : Instr} {a : HostAccess} (h : hostAccess i = some a) (hw : exec i s = .next w) :
    w = s.answer .slverr ∨ (∃ v, w = s.answer (.data v)) ∨
      (s.busy = false ∧
        ((∃ k v, k < s.cfg.ibufBytes ∧ w = (s.writeIbuf k v).answer .done) ∨
          (∃ k v, k < s.cfg.obufBytes ∧ w = (s.writeObuf k v).answer .done) ∨
          (∃ k v, k < s.cfg.ibufBytes ∧ k % 4 = 0 ∧ w = (s.writeIbufWord k v).answer .done) ∨
          (∃ k v, k < s.cfg.obufBytes ∧ k % 4 = 0 ∧ w = (s.writeObufWord k v).answer .done))) ∨
      (∃ r v t, writeReg s r v = some t ∧ w = t.answer .done) := by
  have := exec_access_cases s i a h
  simpa only [hw, Host.Outcome.next.injEq] using this

end Sys2Proof.Machine
end

