-- ==== Sys2Proof/Laws/Commands.lean ====
section
/-! SUPPORT. Everything an accept can do (40_command.md R110, R111, R113, R114): the outcomes of each command's checks, and of
the accept as a whole. -/

namespace Sys2Proof.Machine

theorem outOfRange_iff (s : State) (a b : Nat) :
    s.outOfRange a b = true ↔ s.cfg.ibufBytes < s.src.toNat + a ∨ s.cfg.obufBytes < s.dst.toNat + b := by
  simp [State.outOfRange]

theorem packCheck_cases (s : State) :
    (s.dst.toNat % 4 ≠ 0 ∧ packCheck s = (s, some .align)) ∨
      (s.dst.toNat % 4 = 0 ∧
        (s.cfg.ibufBytes < s.src.toNat + packSrcSpan s ∨ s.cfg.obufBytes < s.dst.toNat + packDstSpan s) ∧
        packCheck s = (s, some .range)) ∨
      (s.dst.toNat % 4 = 0 ∧
        ¬(s.cfg.ibufBytes < s.src.toNat + packSrcSpan s ∨ s.cfg.obufBytes < s.dst.toNat + packDstSpan s) ∧
        packCheck s = (s, none)) := by
  unfold packCheck
  simp only [outOfRange_iff]
  split_ifs with h1 h2
  · exact .inl ⟨h1, rfl⟩
  · exact .inr (.inl ⟨by omega, h2, rfl⟩)
  · exact .inr (.inr ⟨by omega, h2, rfl⟩)

theorem premulCheck_cases (s : State) :
    ((s.src.toNat % 4 ≠ 0 ∨ s.dst.toNat % 4 ≠ 0) ∧ premulCheck s = (s, some .align)) ∨
      ((s.src.toNat % 4 = 0 ∧ s.dst.toNat % 4 = 0) ∧
        (s.cfg.ibufBytes < s.src.toNat + premulSrcSpan s ∨ s.cfg.obufBytes < s.dst.toNat + premulDstSpan s) ∧
        premulCheck s = (s, some .range)) ∨
      ((s.src.toNat % 4 = 0 ∧ s.dst.toNat % 4 = 0) ∧
        ¬(s.cfg.ibufBytes < s.src.toNat + premulSrcSpan s ∨ s.cfg.obufBytes < s.dst.toNat + premulDstSpan s) ∧
        premulCheck s = (s, none)) := by
  unfold premulCheck
  simp only [outOfRange_iff]
  split_ifs with h1 h2
  · exact .inl ⟨h1, rfl⟩
  · exact .inr (.inl ⟨by omega, h2, rfl⟩)
  · exact .inr (.inr ⟨by omega, h2, rfl⟩)

theorem stripCheck_cases (s : State) :
    (s.len.toNat < 6 ∧ stripCheck s = (s, some .short)) ∨
      (6 ≤ s.len.toNat ∧
        (s.cfg.ibufBytes < s.src.toNat + stripSrcSpan s ∨ s.cfg.obufBytes < s.dst.toNat + stripDstSpan s) ∧
        stripCheck s = (s, some .range)) ∨
      (6 ≤ s.len.toNat ∧
        ¬(s.cfg.ibufBytes < s.src.toNat + stripSrcSpan s ∨ s.cfg.obufBytes < s.dst.toNat + stripDstSpan s) ∧
        (((s.ibufByte s.src.toNat).toNat % 16 ≠ 8 ∧ stripCheck s = (s.captureHdr, some .method)) ∨
          ((s.ibufByte s.src.toNat).toNat % 16 = 8 ∧ (s.ibufByte (s.src.toNat + 1)).getLsbD 5 = true ∧
            stripCheck s = (s.captureHdr, some .fdict)) ∨
          ((s.ibufByte s.src.toNat).toNat % 16 = 8 ∧ (s.ibufByte (s.src.toNat + 1)).getLsbD 5 = false ∧
            stripCheck s = (s.captureHdr, none)))) := by
  have hm16 : ∀ b : Byte, (b &&& 0x0F#8 ≠ 8#8) ↔ b.toNat % 16 ≠ 8 := by decide
  have hb5 : ∀ b : Byte, (b &&& 0x20#8 ≠ 0#8) ↔ b.getLsbD 5 = true := by decide
  unfold stripCheck
  simp only [outOfRange_iff, hm16, hb5]
  split_ifs with h1 h2 h3 h4
  · exact .inl ⟨h1, rfl⟩
  · exact .inr (.inl ⟨by omega, h2, rfl⟩)
  · exact .inr (.inr ⟨by omega, h2, .inl ⟨h3, rfl⟩⟩)
  · exact .inr (.inr ⟨by omega, h2, .inr (.inl ⟨by omega, h4, rfl⟩)⟩)
  · exact .inr (.inr ⟨by omega, h2, .inr (.inr ⟨by omega, by simpa using h4, rfl⟩)⟩)

theorem startCommand_fail {check : State → State × Option CmdError} (units : State → Nat) {s t : State} {e : CmdError}
    (h : check s.clearOutcome = (t, some e)) : startCommand check units s = t.fail e := by simp [startCommand, h]

theorem startCommand_ok {check : State → State × Option CmdError} (units : State → Nat) {s t : State}
    (h : check s.clearOutcome = (t, none)) :
    startCommand check units s = if units t = 0 then t.completeOk else t.beginRun := by simp [startCommand, h]

/-- Everything an accept can do: fail before HDR is captured; fail after it (STRIP only); or pass, and then complete or run. -/
theorem accept_cases (s : State) :
    (∃ e, s.accept = s.clearOutcome.fail e ∧ e ≠ .method ∧ e ≠ .fdict) ∨
      (∃ e, s.accept = s.clearOutcome.captureHdr.fail e ∧ (e = .method ∨ e = .fdict) ∧
        decodeCode s.opCode = .ok .strip) ∨
      (∃ c w, decodeCode s.opCode = .ok c ∧ CommandFits c s ∧
        ((c ≠ .strip ∧ w = s.clearOutcome) ∨ (c = .strip ∧ w = s.clearOutcome.captureHdr)) ∧
        s.accept = if units c s = 0 then w.completeOk else w.beginRun) := by
  cases hd : decodeCode s.opCode with
  | error e => exact .inl ⟨.badop, by simp [State.accept, hd], by simp, by simp⟩
  | ok c =>
    cases c
    · have e0 : s.accept = startCommand packCheck packUnits s := by simp [State.accept, hd]
      rcases packCheck_cases s.clearOutcome with ⟨_, e⟩ | ⟨_, _, e⟩ | ⟨a, b, e⟩
      · exact .inl ⟨.align, by rw [e0, startCommand_fail _ e], by simp, by simp⟩
      · exact .inl ⟨.range, by rw [e0, startCommand_fail _ e], by simp, by simp⟩
      · exact .inr (.inr ⟨.pack, _, rfl,
          ⟨a, Nat.le_of_not_lt fun h => b (.inl h), Nat.le_of_not_lt fun h => b (.inr h)⟩, .inl ⟨by simp, rfl⟩,
          by rw [e0, startCommand_ok _ e]; rfl⟩)
    · have e0 : s.accept = startCommand premulCheck premulUnits s := by simp [State.accept, hd]
      rcases premulCheck_cases s.clearOutcome with ⟨_, e⟩ | ⟨_, _, e⟩ | ⟨a, b, e⟩
      · exact .inl ⟨.align, by rw [e0, startCommand_fail _ e], by simp, by simp⟩
      · exact .inl ⟨.range, by rw [e0, startCommand_fail _ e], by simp, by simp⟩
      · exact .inr (.inr ⟨.premul, _, rfl,
          ⟨a, Nat.le_of_not_lt fun h => b (.inl h), Nat.le_of_not_lt fun h => b (.inr h)⟩, .inl ⟨by simp, rfl⟩,
          by rw [e0, startCommand_ok _ e]; rfl⟩)
    · have e0 : s.accept = startCommand stripCheck stripUnits s := by simp [State.accept, hd]
      rcases stripCheck_cases s.clearOutcome with ⟨_, e⟩ | ⟨_, _, e⟩ | ⟨a, b, ⟨_, e⟩ | ⟨_, _, e⟩ | ⟨_, _, e⟩⟩
      · exact .inl ⟨.short, by rw [e0, startCommand_fail _ e], by simp, by simp⟩
      · exact .inl ⟨.range, by rw [e0, startCommand_fail _ e], by simp, by simp⟩
      · exact .inr (.inl ⟨.method, by rw [e0, startCommand_fail _ e], .inl rfl, rfl⟩)
      · exact .inr (.inl ⟨.fdict, by rw [e0, startCommand_fail _ e], .inr rfl, rfl⟩)
      · exact .inr (.inr ⟨.strip, _, rfl,
          ⟨a, Nat.le_of_not_lt fun h => b (.inl h), Nat.le_of_not_lt fun h => b (.inr h)⟩, .inr ⟨rfl, rfl⟩,
          by rw [e0, startCommand_ok _ e]; rfl⟩)

/-- A START of an idle block answers OKAY with the accept, which sees the IE of the same write (10_state.md R23). -/
theorem exec_start (s : State) (v : Word) (hb : s.busy = false) (hv : IsStart v) :
    exec (.wr32 0x004#22 v) s = .next ((State.accept { s with ie := v.getLsbD 8 }).answer .done) := by
  obtain ⟨h0, h1⟩ := hv
  refine (exec_wr32_reg .ctrl v s).trans ?_
  simp only [writeReg, writeCtrl, h0, h1, hb]
  rfl

end Sys2Proof.Machine
end

