-- ==== Sys2Proof/Laws/Engine.lean ====
section
/-! SUPPORT. Everything an engine step of a running command does (40_command.md R115; 41_pack.md R133; 42_premul.md R154;
43_strip.md R174): each unit of a command that fits its buffers, and the step as a whole. -/

namespace Sys2Proof.Machine

/-! ## Sizes -/

theorem rowBytes_eq (w : BitVec 16) : rowBytes w = (w.toNat + 31) / 32 * 4 := by
  simp only [rowBytes, paddedWidth]; omega

theorem unitSize_pos (c : Command) : 0 < unitSize c := by cases c <;> decide

/-- The destination span is the units of the command, one after another (R111). -/
theorem dstSpan_eq (c : Command) (s : State) : dstSpan c s = units c s * unitSize c := by
  cases c
  · exact (Nat.mul_one _).symm
  · exact Nat.mul_comm _ _
  · exact (Nat.mul_one _).symm

/-- A quotient by the row length is a row of the bitmap. -/
theorem pixel_inside {y x w h : Nat} (hy : y < h) (hx : x < w) : y * w + x < w * h := by
  have : (y + 1) * w ≤ h * w := Nat.mul_le_mul_right _ hy
  rw [Nat.succ_mul] at this
  rw [Nat.mul_comm w h]
  omega

/-! ## PACK -/

/-- One column of PACK: whether it is a truthy pixel of the row. -/
theorem packBit_ok {s : State} {x y : Nat} (h : x < s.width.toNat → pixelIndex s x y < s.cfg.ibufBytes) :
    packBit s x y = .ok (decide (x < s.width.toNat ∧ s.ibufByte (pixelIndex s x y) ≠ 0)) := by
  unfold packBit
  split_ifs with hx
  · simp [State.engineRead, h hx, Except.map, hx, bne, Bool.beq_eq_decide_eq]
  · simp [hx]

/-- The eight columns of a byte, summed with their weights (R133, R134). -/
theorem packBits_ok {s : State} {y xb : Nat} (f : Nat → Bool) (h : ∀ b < 8, packBit s (xb * 8 + b) y = .ok (f b)) :
    packBits s y xb [0, 1, 2, 3, 4, 5, 6, 7] 0 =
      .ok (BitVec.ofNat 8 (((List.range 8).map fun b => if f b then 2 ^ (7 - b) else 0).sum)) := by
  have step : ∀ b < 8, ∀ (rest : List Nat) (v : Byte),
      packBits s y xb (b :: rest) v = packBits s y xb rest (if f b then v ||| 1#8 <<< (7 - b) else v) := by
    intro b hb rest v
    simp only [packBits, h b hb]
    cases f b <;> rfl
  rw [step 0 (by omega), step 1 (by omega), step 2 (by omega), step 3 (by omega), step 4 (by omega), step 5 (by omega),
    step 6 (by omega), step 7 (by omega), packBits]
  simp only [show List.range 8 = [0, 1, 2, 3, 4, 5, 6, 7] from rfl, List.map_cons, List.map_nil, List.sum_cons,
    List.sum_nil]
  generalize f 0 = b0, f 1 = b1, f 2 = b2, f 3 = b3, f 4 = b4, f 5 = b5, f 6 = b6, f 7 = b7
  revert b0 b1 b2 b3 b4 b5 b6 b7
  decide

/-- Each bit of such a sum is its column. -/
theorem packSum_bit (f : Nat → Bool) (b : Nat) (hb : b < 8) :
    (BitVec.ofNat 8 (((List.range 8).map fun b => if f b then 2 ^ (7 - b) else 0).sum)).getLsbD (7 - b) = f b := by
  simp only [show List.range 8 = [0, 1, 2, 3, 4, 5, 6, 7] from rfl, List.map_cons, List.map_nil, List.sum_cons,
    List.sum_nil]
  have : ∀ b0 b1 b2 b3 b4 b5 b6 b7 : Bool,
      let v := BitVec.ofNat 8 ((if b0 then 2 ^ (7 - 0) else 0) + ((if b1 then 2 ^ (7 - 1) else 0) +
        ((if b2 then 2 ^ (7 - 2) else 0) + ((if b3 then 2 ^ (7 - 3) else 0) + ((if b4 then 2 ^ (7 - 4) else 0) +
          ((if b5 then 2 ^ (7 - 5) else 0) + ((if b6 then 2 ^ (7 - 6) else 0) +
            ((if b7 then 2 ^ (7 - 7) else 0) + 0))))))))
      v.getLsbD (7 - 0) = b0 ∧ v.getLsbD (7 - 1) = b1 ∧ v.getLsbD (7 - 2) = b2 ∧ v.getLsbD (7 - 3) = b3 ∧
        v.getLsbD (7 - 4) = b4 ∧ v.getLsbD (7 - 5) = b5 ∧ v.getLsbD (7 - 6) = b6 ∧ v.getLsbD (7 - 7) = b7 := by
    decide
  have h := this (f 0) (f 1) (f 2) (f 3) (f 4) (f 5) (f 6) (f 7)
  interval_cases b
  exacts [h.1, h.2.1, h.2.2.1, h.2.2.2.1, h.2.2.2.2.1, h.2.2.2.2.2.1, h.2.2.2.2.2.2.1, h.2.2.2.2.2.2.2]

/-- Whether column `8 * xb + b` of row `y` is a truthy pixel. -/
def truthy (s : State) (y xb b : Nat) : Bool :=
  decide (8 * xb + b < s.width.toNat ∧ s.ibufByte (pixelIndex s (8 * xb + b) y) ≠ 0)

theorem packOut_eq (s : State) (j : Nat) :
    packOut s j = BitVec.ofNat 8 (((List.range 8).map fun b =>
      if truthy s (j / rowBytes s.width) (j % rowBytes s.width) b then 2 ^ (7 - b) else 0).sum) := by
  simp only [packOut, truthy, decide_eq_true_eq]

/-- Bit by bit, PACK's output byte is the truthiness of its pixels (R134). -/
theorem packOut_bit (s : State) (j b : Nat) (hb : b < 8) :
    (packOut s j).getLsbD (7 - b) = truthy s (j / rowBytes s.width) (j % rowBytes s.width) b := by
  rw [packOut_eq]
  exact packSum_bit _ b hb

/-- Unit `k` of a PACK that fits writes byte `k` of its whole output. -/
theorem packUnit_ok {s : State} {k : Nat} (h : CommandFits .pack s) (hk : k < packUnits s) :
    packUnit s k = .ok (s.writeObuf (s.dst.toNat + k) (packOut s k)) := by
  have h1 : s.src.toNat + s.width.toNat * s.height.toNat ≤ s.cfg.ibufBytes := h.srcFits
  have h2 : s.dst.toNat + s.height.toNat * rowBytes s.width ≤ s.cfg.obufBytes := h.dstFits
  have hk' : k < s.height.toNat * rowBytes s.width := hk
  have hy : k / rowBytes s.width < s.height.toNat := Nat.div_lt_of_lt_mul (by rwa [Nat.mul_comm])
  unfold packUnit
  rw [packBits_ok (truthy s (k / rowBytes s.width) (k % rowBytes s.width)) fun b _ => ?_]
  · rw [packOut_eq]
    simp only [State.engineWrite]
    rw [if_pos (by omega)]
  · rw [packBit_ok fun hx => ?_, truthy, Nat.mul_comm]
    have := pixel_inside hy hx
    simp only [pixelIndex]
    omega

/-! ## PREMUL and STRIP -/

/-- Unit `i` of a PREMUL that fits writes the word of pixel `i`. -/
theorem premulUnit_ok {s : State} {i : Nat} (h : CommandFits .premul s) (hi : i < premulUnits s) :
    premulUnit s i = .ok (s.writeObufWord (s.dst.toNat + 4 * i)
      (premulWord (s.ibufByte (s.src.toNat + 4 * i + 0)) (s.ibufByte (s.src.toNat + 4 * i + 1))
        (s.ibufByte (s.src.toNat + 4 * i + 2)) (s.ibufByte (s.src.toNat + 4 * i + 3)))) := by
  have h1 : s.src.toNat + 4 * s.pixelCount ≤ s.cfg.ibufBytes := h.srcFits
  have h2 : s.dst.toNat + 4 * s.pixelCount ≤ s.cfg.obufBytes := h.dstFits
  have hi' : i < s.pixelCount := hi
  have hr : ∀ d < 4, s.engineRead (s.src.toNat + 4 * i + d) = .ok (s.ibufByte (s.src.toNat + 4 * i + d)) := by
    intro d hd
    rw [State.engineRead, if_pos (by omega)]
  unfold premulUnit
  rw [hr 0 (by omega), hr 1 (by omega), hr 2 (by omega), hr 3 (by omega)]
  simp only [bind, Except.bind, State.engineWriteWord]
  rw [if_pos (by omega)]

/-- Unit `i` of a STRIP that fits copies byte `i` of the body. -/
theorem stripUnit_ok {s : State} {i : Nat} (h : CommandFits .strip s) (hi : i < stripUnits s) :
    stripUnit s i = .ok (s.writeObuf (s.dst.toNat + i) (s.ibufByte (s.src.toNat + 2 + i))) := by
  have h1 : s.src.toNat + s.len.toNat ≤ s.cfg.ibufBytes := h.srcFits
  have h2 : s.dst.toNat + (s.len.toNat - 6) ≤ s.cfg.obufBytes := h.dstFits
  have hi' : i < s.len.toNat - 6 := hi
  unfold stripUnit
  rw [State.engineRead, if_pos (by omega)]
  simp only [bind, Except.bind, State.engineWrite]
  rw [if_pos (by omega)]

/-- The four lanes of a premultiplied word (R154, R157). -/
theorem premulWord_bytes (r g b a : Byte) :
    byteOf (premulWord r g b a) 0 = a ∧ byteOf (premulWord r g b a) 1 = scale r a ∧
      byteOf (premulWord r g b a) 2 = scale g a ∧ byteOf (premulWord r g b a) 3 = scale b a :=
  byteOf_wordOf _ _ _ _

/-- The exact value of `scale` (R153): it never wraps. -/
theorem scale_toNat (c a : Byte) : (scale c a).toNat = c.toNat * a.toNat / 255 := by
  have hc := c.isLt; have ha := a.isLt
  have : c.toNat * a.toNat ≤ 255 * a.toNat := Nat.mul_le_mul_right _ (by omega)
  rw [scale, BitVec.toNat_ofNat, Nat.mod_eq_of_lt]
  omega

/-! ## Any engine step -/

theorem engineWrite_eq {s t : State} {i : Nat} {v : Byte} (h : s.engineWrite i v = .ok t) :
    i < s.cfg.obufBytes ∧ t = s.writeObuf i v := by
  unfold State.engineWrite at h
  split_ifs at h with hi
  exact ⟨hi, (Except.ok.inj h).symm⟩

theorem engineWriteWord_eq {s t : State} {i : Nat} {v : Word} (h : s.engineWriteWord i v = .ok t) :
    i + 3 < s.cfg.obufBytes ∧ t = s.writeObufWord i v := by
  unfold State.engineWriteWord at h
  split_ifs at h with hi
  exact ⟨hi, (Except.ok.inj h).symm⟩

/-- A unit that succeeds writes OBUF and nothing else, whatever the command. -/
theorem packUnit_frame {s t : State} {k : Nat} (h : packUnit s k = .ok t) : t = { s with obuf := t.obuf } := by
  unfold packUnit at h
  split at h
  · cases h
  · rw [(engineWrite_eq h).2]; rfl

theorem premulUnit_frame {s t : State} {k : Nat} (h : premulUnit s k = .ok t) : t = { s with obuf := t.obuf } := by
  unfold premulUnit State.engineRead at h
  split_ifs at h <;> simp only [bind, Except.bind, reduceCtorEq] at h
  rw [(engineWriteWord_eq h).2]; rfl

theorem stripUnit_frame {s t : State} {k : Nat} (h : stripUnit s k = .ok t) : t = { s with obuf := t.obuf } := by
  unfold stripUnit State.engineRead at h
  split_ifs at h <;> simp only [bind, Except.bind, reduceCtorEq] at h
  rw [(engineWrite_eq h).2]; rfl

theorem engineStep_frame {n : Nat} {units : State → Nat} {unit : State → Nat → Except Fault State} {s t : State}
    (hf : ∀ {u k}, unit s k = .ok u → u = { s with obuf := u.obuf }) (h : engineStep n units unit s = .next t) :
    t = { s with obuf := t.obuf, outCount := t.outCount, busy := t.busy, done := t.done } := by
  unfold engineStep at h
  split at h
  · cases h
  · rename_i u hu
    have := hf hu
    cases h
    split_ifs <;> rw [this] <;> rfl

/-- While BUSY a command's step changes OBUF, OUT_COUNT, BUSY and DONE only, in every state. -/
theorem exec_command_frame {c : Command} {s t : State} (hb : s.busy = true) (h : exec c.instr s = .next t) :
    t = { s with obuf := t.obuf, outCount := t.outCount, busy := t.busy, done := t.done } := by
  cases c <;> simp only [Command.instr, exec, execPack, execPremul, execStrip, hb, if_true] at h
  exacts [engineStep_frame packUnit_frame h, engineStep_frame premulUnit_frame h, engineStep_frame stripUnit_frame h]

/-! ## One engine step -/

/-- OUT_COUNT of a command in flight is its units written so far, each of the unit size. -/
theorem InFlight.count {c : Command} {s : State} (h : InFlight c s) :
    s.outCount.toNat = s.unitIndex (unitSize c) * unitSize c :=
  (Nat.div_mul_cancel (Nat.dvd_of_mod_eq_zero h.whole)).symm

/-- OUT_COUNT, counted up by one unit, does not wrap: it stays within the destination span. -/
theorem InFlight.count_next {c : Command} {s : State} (h : InFlight c s) (hp : s.cfg.obufBytes ≤ 0x100000) :
    (s.outCount + BitVec.ofNat 21 (unitSize c)).toNat = (s.unitIndex (unitSize c) + 1) * unitSize c ∧
      (s.unitIndex (unitSize c) + 1) * unitSize c ≤ dstSpan c s := by
  have h1 : (s.unitIndex (unitSize c) + 1) * unitSize c ≤ units c s * unitSize c := Nat.mul_le_mul_right _ h.more
  rw [← dstSpan_eq] at h1
  have h2 := h.fits.dstFits
  have h3 := h.count
  rw [Nat.succ_mul] at h1 ⊢
  refine ⟨?_, h1⟩
  rw [BitVec.toNat_add, BitVec.toNat_ofNat]
  omega

/-- The state an engine step of command `c` leaves, but for OBUF: one more unit counted, and completion at the last. -/
def State.afterUnit (c : Command) (s : State) (m : Memory) : State :=
  { s with
    obuf := m, outCount := s.outCount + BitVec.ofNat 21 (unitSize c),
    busy := decide (s.unitIndex (unitSize c) + 1 ≠ units c s),
    done := decide (s.unitIndex (unitSize c) + 1 = units c s) }

/-- A unit that succeeds, then the count and the completion. -/
theorem engineStep_ok {c : Command} {s : State} {unit : State → Nat → Except Fault State} {m : Memory}
    (h : InFlight c s) (hu : unit s (s.unitIndex (unitSize c)) = .ok { s with obuf := m }) :
    engineStep (unitSize c) (units c) unit s = .next (s.afterUnit c m) := by
  simp only [engineStep, hu, State.afterUnit]
  split_ifs with hl
  · simp [State.completeOk, State.advance, hl]
  · simp [State.advance, hl, h.busy, h.notDone]

/-- Everything one engine step of a running command does (R115): it writes unit `E.K` of the command's output and counts it, and
nothing else in OBUF changes. -/
theorem exec_unit {c : Command} {s : State} (h : InFlight c s) :
    ∃ m, exec c.instr s = .next (s.afterUnit c m) ∧ (Memory.wf s.obuf → Memory.wf m) ∧
      ((∀ x ∈ s.obuf, x.1 < s.cfg.obufBytes) → ∀ x ∈ m, x.1 < s.cfg.obufBytes) ∧
      ∀ i, State.obufByte { s with obuf := m } i =
        if s.dst.toNat + s.unitIndex (unitSize c) * unitSize c ≤ i ∧
            i < s.dst.toNat + (s.unitIndex (unitSize c) + 1) * unitSize c
        then outByte c s (i - s.dst.toNat) else s.obufByte i := by
  have hfit := h.fits
  have hmore := h.more
  have hd : s.dst.toNat + units c s * unitSize c ≤ s.cfg.obufBytes := dstSpan_eq c s ▸ hfit.dstFits
  obtain ⟨n, hn⟩ : ∃ n, s.unitIndex (unitSize c) = n := ⟨_, rfl⟩
  rw [hn] at hmore ⊢
  cases c
  · have hu := packUnit_ok hfit hmore
    have hus : unitSize .pack = 1 := rfl
    rw [hus] at hd
    refine ⟨(s.writeObuf (s.dst.toNat + n) (packOut s n)).obuf, ?_, Memory.write_wf _ _ _,
      Memory.write_backed _ _ _ _ (by omega), fun i => (State.obufByte_writeObuf s _ i _).trans ?_⟩
    · simp only [Command.instr, exec, execPack, h.busy, if_true]
      exact engineStep_ok h (hn ▸ hu)
    · rw [hus, Nat.mul_one, Nat.mul_one]
      by_cases hi : i = s.dst.toNat + n
      · rw [if_pos hi, if_pos (by omega), hi, Nat.add_sub_cancel_left]
        rfl
      · rw [if_neg hi, if_neg (by omega)]
  · have hu := premulUnit_ok hfit hmore
    have hus : unitSize .premul = 4 := rfl
    rw [hus] at hd
    refine ⟨(s.writeObufWord (s.dst.toNat + 4 * n) (premulWord (s.ibufByte (s.src.toNat + 4 * n + 0))
        (s.ibufByte (s.src.toNat + 4 * n + 1)) (s.ibufByte (s.src.toNat + 4 * n + 2))
        (s.ibufByte (s.src.toNat + 4 * n + 3)))).obuf, ?_, Memory.writeWord_wf _ _ _,
      Memory.writeWord_backed _ _ _ _ (by omega), fun i => (State.obufByte_writeObufWord s _ i _).trans ?_⟩
    · simp only [Command.instr, exec, execPremul, h.busy, if_true]
      exact engineStep_ok h (hn ▸ hu)
    · rw [hus]
      by_cases hi : s.dst.toNat + 4 * n ≤ i ∧ i < s.dst.toNat + 4 * n + 4
      · rw [if_pos hi, if_pos (by omega)]
        obtain ⟨d, hd'⟩ := Nat.exists_eq_add_of_le hi.1
        have hd4 : d < 4 := by omega
        have e1 : i - (s.dst.toNat + 4 * n) = d := by omega
        have e2 : i - s.dst.toNat = 4 * n + d := by omega
        have e3 : (4 * n + d) / 4 = n := by omega
        have e4 : (4 * n + d) % 4 = d := by omega
        rw [e1, e2, outByte]
        simp only [premulOut, e3, e4]
        have hb := premulWord_bytes (s.ibufByte (s.src.toNat + 4 * n + 0)) (s.ibufByte (s.src.toNat + 4 * n + 1))
          (s.ibufByte (s.src.toNat + 4 * n + 2)) (s.ibufByte (s.src.toNat + 4 * n + 3))
        clear hd' e1 e2 e3 e4
        interval_cases d
        exacts [hb.1, hb.2.1, hb.2.2.1, hb.2.2.2]
      · rw [if_neg hi, if_neg (by omega)]
  · have hu := stripUnit_ok hfit hmore
    have hus : unitSize .strip = 1 := rfl
    rw [hus] at hd
    refine ⟨(s.writeObuf (s.dst.toNat + n) (s.ibufByte (s.src.toNat + 2 + n))).obuf, ?_, Memory.write_wf _ _ _,
      Memory.write_backed _ _ _ _ (by omega), fun i => (State.obufByte_writeObuf s _ i _).trans ?_⟩
    · simp only [Command.instr, exec, execStrip, h.busy, if_true]
      exact engineStep_ok h (hn ▸ hu)
    · rw [hus, Nat.mul_one, Nat.mul_one]
      by_cases hi : i = s.dst.toNat + n
      · rw [if_pos hi, if_pos (by omega), hi, Nat.add_sub_cancel_left]
        rfl
      · rw [if_neg hi, if_neg (by omega)]

end Sys2Proof.Machine
end

