-- ==== Sys2Proof/Laws/PerInstr.lean ====
section
/-! SUPPORT. The statements made per instruction: each instruction's encoding is one the spec defines (30_encoding.md R95 for a
command code, R99 for a record). -/

namespace Sys2Proof

/-- A record whose W and SZ are those of a write row of R99's table, with any offset and data, is valid. -/
theorem hosttxRecord_write_wf (sz : BitVec 3) (off : Offset) (data : Word) (h : sz = 0#3 ∨ sz = 1#3 ∨ sz = 2#3) :
    Record.wf (hosttxRecord true sz off data) = true := by
  obtain ⟨hw, hs, hz, -, -⟩ := hosttxRecord_fields true sz off data
  have hk := (Record.kind_eq_iff (hosttxRecord true sz off data) true sz).mpr ⟨hw, hs, hz⟩
  unfold Record.wf
  rw [hk]
  rcases h with rfl | rfl | rfl <;> rfl

/-- A record whose W and SZ are those of a read row, with any offset and no data, is valid. -/
theorem hosttxRecord_read_wf (sz : BitVec 3) (off : Offset) (h : sz = 0#3 ∨ sz = 1#3 ∨ sz = 2#3) :
    Record.wf (hosttxRecord false sz off 0) = true := by
  obtain ⟨hw, hs, hz, -, hd⟩ := hosttxRecord_fields false sz off 0
  have hk := (Record.kind_eq_iff (hosttxRecord false sz off 0) false sz).mpr ⟨hw, hs, hz⟩
  have hl := (Record.lowWord_eq_zero_iff (hosttxRecord false sz off 0)).mpr hd
  unfold Record.wf
  rw [hk, hl]
  rcases h with rfl | rfl | rfl <;> rfl

namespace Laws

/-- The encoding of an instruction is a command code that R95 assigns, or a record that R99 calls valid. -/
def EncodingIsValid.Statement (i : Instr) : Prop :=
  match encode i with
  | .cmd code => code.toNat = 1 ∨ code.toNat = 2 ∨ code.toNat = 3
  | .hosttx r => r.wf = true

theorem EncodingIsValid.pack : EncodingIsValid.Statement .pack := .inl rfl

theorem EncodingIsValid.premul : EncodingIsValid.Statement .premul := .inr (.inl rfl)

theorem EncodingIsValid.strip : EncodingIsValid.Statement .strip := .inr (.inr rfl)

theorem EncodingIsValid.rd8 (off : Offset) : EncodingIsValid.Statement (.rd8 off) :=
  hosttxRecord_read_wf _ _ (.inl rfl)

theorem EncodingIsValid.rd16 (off : Offset) : EncodingIsValid.Statement (.rd16 off) :=
  hosttxRecord_read_wf _ _ (.inr (.inl rfl))

theorem EncodingIsValid.rd32 (off : Offset) : EncodingIsValid.Statement (.rd32 off) :=
  hosttxRecord_read_wf _ _ (.inr (.inr rfl))

theorem EncodingIsValid.wr8 (off : Offset) (data : Word) : EncodingIsValid.Statement (.wr8 off data) :=
  hosttxRecord_write_wf _ _ _ (.inl rfl)

theorem EncodingIsValid.wr16 (off : Offset) (data : Word) : EncodingIsValid.Statement (.wr16 off data) :=
  hosttxRecord_write_wf _ _ _ (.inr (.inl rfl))

theorem EncodingIsValid.wr32 (off : Offset) (data : Word) : EncodingIsValid.Statement (.wr32 off data) :=
  hosttxRecord_write_wf _ _ _ (.inr (.inr rfl))

end Laws

end Sys2Proof
end

