-- ==== Sys2Proof/Laws/Turns.lean ====
section
/-! SUPPORT. Everything one step can do: the turn it takes, and each turn's outcomes (20_memory.md R72, 30_encoding.md R98,
40_command.md R115). -/

namespace Sys2Proof.Machine

/-- What a record decodes to is a host access. -/
theorem decodeTx_access {r : Record} {i : Instr} (h : decodeTx r = .ok i) : ∃ a, hostAccess i = some a := by
  unfold decodeTx at h
  split_ifs at h <;> cases h <;> exact ⟨_, rfl⟩

/-- Every host access answers: it neither faults nor is refused. -/
theorem exec_access_next (s : State) (i : Instr) (a : HostAccess) (h : hostAccess i = some a) :
    ∃ t, exec i s = .next t := by
  rcases exec_access_cases s i a h with h | ⟨_, h⟩ | ⟨_, ⟨_, _, _, h⟩ | ⟨_, _, _, h⟩ | ⟨_, _, _, _, h⟩ | ⟨_, _, _, _, h⟩⟩ |
    ⟨_, _, _, _, h⟩ <;> exact ⟨_, h⟩

/-- Retiring an access changes the host's side only. -/
theorem State.retire_eq (s : State) (dest : Option Nat) :
    ∃ trace temps pos, s.retire dest = { s with trace := trace, temps := temps, pos := pos } := by
  unfold State.retire
  cases s.reply with
  | none => exact ⟨_, _, _, rfl⟩
  | some r => exact ⟨_, _, _, rfl⟩

/-- Everything a branch can do: move the host's place, or be refused as no valid script. -/
theorem branch_cases (s : State) (n : Nat) (mask : Word) (l : Nat) (onZero : Bool) :
    (∃ pos, branch s n mask l onZero = .next { s with pos := pos }) ∨
      branch s n mask l onZero = .refused .invalidScript := by
  unfold branch
  by_cases hn : n < 8
  · rw [dif_pos hn]
    cases findLabel s.script l with
    | none => exact .inr rfl
    | some line => exact .inl ⟨_, rfl⟩
  · exact .inr (dif_neg hn)

/-- Everything a host's turn can do: move in the script, or make one access and retire it. -/
theorem hostTurn_cases {s t : State} (h : hostTurn s = .next t) :
    (∃ pos, t = { s with pos := pos }) ∨
      ∃ i a dest w, hostAccess i = some a ∧ exec i s = .next w ∧ t = w.retire dest := by
  unfold hostTurn at h
  split at h
  · cases h; exact .inl ⟨s.pos, rfl⟩
  · cases h; exact .inl ⟨s.pos, rfl⟩
  · cases h; exact .inl ⟨_, rfl⟩
  · rcases branch_cases s _ _ _ true with ⟨p, e⟩ | e <;> rw [e] at h <;> cases h
    exact .inl ⟨p, rfl⟩
  · rcases branch_cases s _ _ _ false with ⟨p, e⟩ | e <;> rw [e] at h <;> cases h
    exact .inl ⟨p, rfl⟩
  · rename_i r dest _
    split at h
    · cases h
    · rename_i i hd
      obtain ⟨a, ha⟩ := decodeTx_access hd
      obtain ⟨w, hw⟩ := exec_access_next s i a ha
      split_ifs at h
      rw [hw] at h
      cases h
      exact .inr ⟨i, a, dest, w, ha, hw, rfl⟩

/-- A host's turn never faults. -/
theorem hostTurn_ne_fault (s : State) (f : Fault) : hostTurn s ≠ .fault f := by
  intro h
  unfold hostTurn at h
  split at h
  · cases h
  · cases h
  · cases h
  · rcases branch_cases s _ _ _ true with ⟨p, e⟩ | e <;> rw [e] at h <;> cases h
  · rcases branch_cases s _ _ _ false with ⟨p, e⟩ | e <;> rw [e] at h <;> cases h
  · split at h
    · cases h
    · rename_i i hd
      obtain ⟨a, ha⟩ := decodeTx_access hd
      obtain ⟨w, hw⟩ := exec_access_next s i a ha
      split_ifs at h
      rw [hw] at h
      cases h

/-- What an engine's turn is: the engine step of the running command, or nothing in an idle block. -/
theorem engineTurn_inFlight {c : Command} {s : State} (h : InFlight c s) : engineTurn s = exec c.instr s := by
  simp [engineTurn, h.busy, h.code]

theorem engineTurn_idle {s : State} (h : s.busy = false) : engineTurn s = .next s := by simp [engineTurn, h]

/-- Everything an engine's turn can do, in every state: nothing, or the step of the command that OP.CODE holds. -/
theorem engineTurn_cases {s t : State} (h : engineTurn s = .next t) :
    (s.busy = false ∧ t = s) ∨ ∃ c, s.busy = true ∧ decodeCode s.opCode = .ok c ∧ exec c.instr s = .next t := by
  unfold engineTurn at h
  cases hb : s.busy with
  | false => rw [hb] at h; cases h; exact .inl ⟨rfl, rfl⟩
  | true =>
    simp only [hb, if_true] at h
    split at h
    · rename_i c hc
      exact .inr ⟨c, rfl, hc, h⟩
    · cases h

/-- Which turn a step takes, and in which state. -/
theorem step_turn (s : State) :
    ∃ turn rest, step s = takeTurn turn { s with schedule := rest } ∧
      (s.schedule = turn :: rest ∨ (s.schedule = [] ∧ rest = [] ∧ turn = defaultTurn s)) := by
  cases hs : s.schedule with
  | nil =>
    refine ⟨defaultTurn s, [], ?_, .inr ⟨rfl, rfl, rfl⟩⟩
    have : { s with schedule := [] } = s := by cases s; simp_all
    rw [this]
    simp [step, hs]
  | cons turn rest => exact ⟨turn, rest, by simp [step, hs], .inl rfl⟩

/-- When the host has the turn, the step is the host's turn. -/
theorem step_of_hostHasTurn {s : State} {rest : List Turn} (h : HostHasTurn s rest) :
    step s = hostTurn { s with schedule := rest } := by
  rcases h with h | ⟨h, rfl, hb⟩
  · simp only [step, h, takeTurn]
  · have : { s with schedule := [] } = s := by cases s; simp_all
    rw [this]
    simp [step, h, takeTurn, defaultTurn, hb]

/-- Everything a search for a label can answer: nothing exactly when the script has none, else a line that carries it. -/
theorem findLabel_spec (script : List Stmt) (l : Nat) :
    (findLabel script l = none ↔ Stmt.label l ∉ script) ∧
      ∀ line, findLabel script l = some line → script[line]? = some (.label l) := by
  induction script with
  | nil => simp [findLabel]
  | cons a rest ih =>
    unfold findLabel
    by_cases h : a = .label l
    · simp [h]
    · rw [if_neg h]
      refine ⟨by rw [Option.map_eq_none_iff, ih.1]; simp [Ne.symm h], fun k hk => ?_⟩
      obtain ⟨j, hj, rfl⟩ := Option.map_eq_some_iff.mp hk
      simpa using ih.2 j hj

/-- Everything a step can do. -/
theorem step_cases {s t : State} (h : step s = .next t) :
    ∃ rest, hostTurn { s with schedule := rest } = .next t ∨ engineTurn { s with schedule := rest } = .next t ∨
      t = State.hardReset { s with schedule := rest } := by
  obtain ⟨turn, rest, hst, _⟩ := step_turn s
  rw [hst] at h
  cases turn with
  | host => exact ⟨rest, .inl h⟩
  | engine => exact ⟨rest, .inr (.inl h)⟩
  | hardReset => exact ⟨rest, .inr (.inr (Host.Outcome.next.inj h).symm)⟩

/-! ## Runs -/

theorem stepsTo_zero {s t : State} : stepsTo 0 s t ↔ s = t :=
  ⟨fun h => Host.Outcome.next.inj h, fun h => congrArg Host.Outcome.next h⟩

/-- A run of any machine, from its first step. -/
theorem run_succ_next (M : Host.Core) (n : Nat) (s t : M.State) :
    M.run (n + 1) s = .next t ↔ ∃ u, M.step s = .next u ∧ M.run n u = .next t := by
  rw [Host.Core.run]
  cases M.step s <;> simp

/-- A run, from its first step. -/
theorem stepsTo_succ {n : Nat} {s t : State} : stepsTo (n + 1) s t ↔ ∃ u, step s = .next u ∧ stepsTo n u t :=
  run_succ_next Sys2Proof.core n s t

/-- A run, by its last step. -/
theorem stepsTo_last {n : Nat} {s t : State} : stepsTo (n + 1) s t ↔ ∃ u, stepsTo n s u ∧ step u = .next t := by
  induction n generalizing s with
  | zero =>
    rw [stepsTo_succ]
    exact ⟨fun ⟨u, h, hu⟩ => ⟨s, stepsTo_zero.mpr rfl, stepsTo_zero.mp hu ▸ h⟩,
      fun ⟨u, hu, h⟩ => ⟨t, stepsTo_zero.mp hu ▸ h, stepsTo_zero.mpr rfl⟩⟩
  | succ n ih =>
    rw [stepsTo_succ]
    constructor
    · rintro ⟨u, h, hu⟩
      obtain ⟨w, hw, ht⟩ := ih.mp hu
      exact ⟨w, stepsTo_succ.mpr ⟨u, h, hw⟩, ht⟩
    · rintro ⟨w, hw, ht⟩
      obtain ⟨u, h, hu⟩ := stepsTo_succ.mp hw
      exact ⟨u, h, ih.mpr ⟨w, hu, ht⟩⟩

/-! ## What keeps a command in flight -/

/-- A command in flight depends on BUSY, DONE, ERR, OP, the operands, OUT_COUNT and the parameters only. -/
theorem InFlight.congr {c : Command} {s t : State} (h : InFlight c s) (hb : t.busy = true) (hd : t.done = false)
    (he : t.err = s.err) (ho : t.opCode = s.opCode) (h1 : t.src = s.src) (h2 : t.dst = s.dst) (h3 : t.len = s.len)
    (h4 : t.width = s.width) (h5 : t.height = s.height) (h6 : t.outCount = s.outCount) (h7 : t.cfg = s.cfg) :
    InFlight c t := by
  obtain ⟨_, _, hne, hc, ⟨hsh, hs, hds⟩, hw, hm⟩ := h
  refine ⟨hb, hd, he ▸ hne, ho ▸ hc, ⟨?_, ?_, ?_⟩, h6 ▸ hw, ?_⟩ <;> cases c <;>
    simp_all [srcSpan, dstSpan, units, packSrcSpan, packDstSpan, packUnits, premulSrcSpan, premulDstSpan, premulUnits,
      stripSrcSpan, stripDstSpan, stripUnits, State.pixelCount, State.bodyLen, State.unitIndex]

/-- A buffer the command reads or writes does not enter into it being in flight. -/
theorem InFlight.buffers {c : Command} {s : State} (h : InFlight c s) (m n : Memory) :
    InFlight c { s with ibuf := m, obuf := n } :=
  h.congr h.busy h.notDone rfl rfl rfl rfl rfl rfl rfl rfl rfl

/-- After a unit that is not the last, the command is still in flight. -/
theorem InFlight.afterUnit {c : Command} {s : State} (h : InFlight c s) (hp : s.cfg.obufBytes ≤ 0x100000) (m : Memory)
    (hm : s.unitIndex (unitSize c) + 1 ≠ units c s) :
    InFlight c (s.afterUnit c m) ∧ (s.afterUnit c m).unitIndex (unitSize c) = s.unitIndex (unitSize c) + 1 := by
  have hc := (h.count_next hp).1
  have hi : (s.afterUnit c m).unitIndex (unitSize c) = s.unitIndex (unitSize c) + 1 := by
    show (s.outCount + BitVec.ofNat 21 (unitSize c)).toNat / unitSize c = _
    rw [hc, Nat.mul_div_cancel _ (unitSize_pos c)]
  have hmore := h.more
  have hu : units c (s.afterUnit c m) = units c s := by cases c <;> rfl
  refine ⟨⟨by simp [State.afterUnit, hm], by simp [State.afterUnit, hm], h.noError, h.code, ?_, ?_, ?_⟩, hi⟩
  · obtain ⟨h1, h2, h3⟩ := h.fits
    exact ⟨by cases c <;> exact h1, by cases c <;> exact h2, by cases c <;> exact h3⟩
  · show (s.outCount + BitVec.ofNat 21 (unitSize c)).toNat % unitSize c = 0
    rw [hc, Nat.mul_mod_left]
  · rw [hi, hu]; omega

/-- What a host's turn can do to a running command: nothing but IE and DONE, or end it by a soft reset. -/
theorem hostTurn_busy {s t : State} (hb : s.busy = true) (h : hostTurn s = .next t) :
    (∃ ie done reply trace temps pos,
      t = { s with
        ie := ie, done := done, reply := reply, trace := trace, temps := temps, pos := pos } ∧ (done = true → s.done = true)) ∨
      ∃ reply trace temps pos,
        t = { s.softReset with reply := reply, trace := trace, temps := temps, pos := pos } := by
  rcases hostTurn_cases h with ⟨p, rfl⟩ | ⟨i, a, dest, w, ha, hw, rfl⟩
  · exact .inl ⟨_, _, _, _, _, _, rfl, id⟩
  · obtain ⟨tr, te, p, hr⟩ := w.retire_eq dest
    rw [hr]
    rcases exec_access_cases s i a ha with e | ⟨v, e⟩ | ⟨hi, _⟩ | ⟨r, v, u, hu, e⟩
    · rw [hw] at e; cases e; exact .inl ⟨_, _, _, _, _, _, rfl, id⟩
    · rw [hw] at e; cases e; exact .inl ⟨_, _, _, _, _, _, rfl, id⟩
    · rw [hb] at hi; cases hi
    · rw [hw] at e
      cases e
      rcases writeReg_some hu with rfl | rfl | rfl | rfl | ⟨hi, _⟩ | ⟨hi, _⟩
      · exact .inl ⟨_, _, _, _, _, _, rfl, id⟩
      · exact .inl ⟨_, _, _, _, _, _, rfl, fun h => by cases h⟩
      · exact .inr ⟨_, _, _, _, rfl⟩
      · exact .inl ⟨_, _, _, _, _, _, rfl, id⟩
      · rw [hb] at hi; cases hi
      · rw [hb] at hi; cases hi

end Sys2Proof.Machine
end

