-- ==== Sys2Proof/Tests/Slice0.lean ====
section
/-! SUPPORT. The model's own tests, small and named: the checks of WellFormed, words written out from 30_encoding.md, vectors of
95_test_vectors.md, and for every statement with hypotheses a state that meets them. Expected results are the spec's. -/

namespace Sys2Proof.Machine.Tests

open Sys2Proof Sys2Proof.Machine

/-- Whether an outcome is a next state that meets `p`. -/
def leads (o : Host.Outcome State Fault Refusal) (p : State → Bool) : Bool :=
  match o with
  | .next t => p t
  | .fault _ => false
  | .refused _ => false

/-! ## WellFormed: one ill-formed term for each check -/

theorem test_params_reference : Config.reference.valid = true := by decide
theorem test_params_base : Params.valid { base := 0x1000, ibufBytes := 4096, obufBytes := 4096 } = false := by decide
theorem test_params_ibuf_multiple : Params.valid { base := 0, ibufBytes := 4095, obufBytes := 4096 } = false := by decide
theorem test_params_ibuf_small : Params.valid { base := 0, ibufBytes := 4, obufBytes := 4096 } = false := by decide
theorem test_params_ibuf_large : Params.valid { base := 0, ibufBytes := 0x100004, obufBytes := 4096 } = false := by decide
theorem test_params_obuf_multiple : Params.valid { base := 0, ibufBytes := 4096, obufBytes := 4098 } = false := by decide
theorem test_params_obuf_small : Params.valid { base := 0, ibufBytes := 4096, obufBytes := 4 } = false := by decide
theorem test_params_obuf_large : Params.valid { base := 0, ibufBytes := 8, obufBytes := 0x100004 } = false := by decide

theorem test_record_valid : Record.wf 0xA000000400000101#64 = true := by decide
theorem test_record_size : Record.wf 0x3000000000000000#64 = false := by decide
theorem test_record_write_size : Record.wf 0xF000000000000000#64 = false := by decide
theorem test_record_zero_bits : Record.wf 0xA040000400000101#64 = false := by decide
theorem test_record_read_data : Record.wf 0x2000000800000001#64 = false := by decide

theorem test_stmt_read_without_temp : Stmt.wf [] (.tx 0x2000000800000000#64 none) = false := by decide
theorem test_stmt_write_with_temp : Stmt.wf [] (.tx 0xA000000400000101#64 (some 0)) = false := by decide
theorem test_stmt_temp_range : Stmt.wf [] (.tx 0x2000000800000000#64 (some 8)) = false := by decide
theorem test_stmt_bad_record : Stmt.wf [] (.tx 0x3000000000000000#64 (some 0)) = false := by decide
theorem test_stmt_branch_label : Stmt.wf [.label 1] (.bz 0 2 7) = false := by decide
theorem test_stmt_branch_temp : Stmt.wf [.label 1] (.bnz 8 2 1) = false := by decide
theorem test_script_program5_line2 : scriptWf [.tx 0x1000000800000000#64 (some 0), .halt] = true := by decide

/-! ## Decode: every constructor, from a word written out from R95 or R99 -/

theorem test_decode_pack : decode (.cmd 0b0001#4) = .ok .pack := by decide
theorem test_decode_premul : decode (.cmd 0b0010#4) = .ok .premul := by decide
theorem test_decode_strip : decode (.cmd 0b0011#4) = .ok .strip := by decide
theorem test_decode_reserved_code : decode (.cmd 0b0100#4) = .error (.reservedCommand 4) := by decide
/-- Program 2, line 15: `rd8 OBUF+0x45`. -/
theorem test_decode_rd8 : decode (.hosttx 0x0020004500000000#64) = .ok (.rd8 0x200045#22) := by decide
/-- Program 5, line 2: `rd16 STATUS`. -/
theorem test_decode_rd16 : decode (.hosttx 0x1000000800000000#64) = .ok (.rd16 0x008#22) := by decide
/-- Program 1, line 13: `rd32 OUT_COUNT`. -/
theorem test_decode_rd32 : decode (.hosttx 0x2000002800000000#64) = .ok (.rd32 0x028#22) := by decide
/-- Program 3, line 4: `wr8 IBUF+8, 0xDD`. -/
theorem test_decode_wr8 : decode (.hosttx 0x80100008000000DD#64) = .ok (.wr8 0x100008#22 0xDD#32) := by decide
/-- W = 1, SZ = 001, OFF = 0x200000, DATA = 0xBEEF (vector BE5). -/
theorem test_decode_wr16 : decode (.hosttx 0x902000000000BEEF#64) = .ok (.wr16 0x200000#22 0xBEEF#32) := by decide
/-- R99's worked example. -/
theorem test_decode_wr32 : decode (.hosttx 0xA000000400000101#64) = .ok (.wr32 0x004#22 0x101#32) := by decide
theorem test_decode_bad_size : decode (.hosttx 0x3000000000000000#64) = .error (.invalidSize 3) := by decide
theorem test_decode_bad_bits : decode (.hosttx 0x2040000000000000#64) = .error (.reservedBits 1) := by decide
theorem test_decode_read_data : decode (.hosttx 0x2000000800000001#64) = .error (.readWithData 1) := by decide
/-- The table word of a command is OP, of which bits 3:0 select (R91). -/
theorem test_table_word_cmd : decodeTableWord 8 2 = some .premul ∧ decodeTableWord 8 4 = none := by decide
theorem test_table_word_hosttx : decodeTableWord 64 0x2000000800000000 = some (.rd32 0x008#22) := by decide

/-! ## One step of each instruction -/

/-- An idle block after reset, with these bytes written from `IBUF[0]` on. -/
def withInput (bytes : List Byte) : State :=
  { State.reset with ibuf := (List.range bytes.length).zip bytes }

/-- PK1: ten truthy pixels, with 2 of the 4 bytes written: BUSY, and the next byte is padding. -/
def packing : State :=
  { withInput (List.replicate 10 0xFF) with
    busy := true, opCode := 1, width := 10, height := 1, outCount := 1, obuf := [(0, 0xFF)] }

/-- PM15: two pixels, PM3 and PM2, with one word written. -/
def premultiplying : State :=
  { withInput [0xFF, 0x80, 0x01, 0x80, 0x0A, 0x14, 0x1E, 0xFF] with
    busy := true, opCode := 2, width := 2, height := 1, outCount := 4,
    obuf := [(0, 0x80), (1, 0x80), (2, 0x40), (3, 0x00)] }

/-- ST1 just accepted: three body bytes to copy to 0x10. -/
def stripping : State :=
  { withInput [0x78, 0x9C, 0x01, 0x02, 0x03, 0xAA, 0xBB, 0xCC, 0xDD] with
    busy := true, opCode := 3, len := 9, dst := 0x10, hdrCmf := 0x78, hdrFlg := 0x9C }

/-- PK1: byte 1 is 0xC0. -/
theorem test_pack_unit :
    leads (exec .pack packing) (fun t => t.obuf == [(0, 0xFF), (1, 0xC0)] && t.outCount == 2 && t.busy) = true := by decide
/-- PK13: DST = 2 is an ALIGN error at the accept. -/
theorem test_pack_align :
    leads (exec .pack { packing with busy := false, dst := 2 }) (fun t => t.statusWord == 0x206) = true := by decide
/-- PM15: the last word, 0xFF0A141E, completes the command. -/
theorem test_premul_unit :
    leads (exec .premul premultiplying) (fun t => Memory.read t.obuf 4 == some 0xFF && Memory.read t.obuf 5 == some 0x0A &&
      Memory.read t.obuf 7 == some 0x1E && t.statusWord == 0x2 && t.outCount == 8) = true := by decide
/-- PM8: floor division, where rounding would give 20 for blue. -/
theorem test_premul_floor : premulWord 200 100 50 100 = 0x644E2713#32 := by decide
/-- ST1: the first body byte. -/
theorem test_strip_unit :
    leads (exec .strip stripping) (fun t => t.obuf == [(0x10, 0x01)] && t.outCount == 1 && t.busy) = true := by decide
/-- ST7: METHOD before FDICT, and HDR is captured. -/
theorem test_strip_method :
    leads (exec .strip { withInput [0x7F, 0x20, 0x01, 0xAA, 0xBB, 0xCC, 0xDD] with opCode := 3, len := 7, dst := 0x10 })
      (fun t => t.statusWord == 0x506 && t.hdrCmf == 0x7F && t.hdrFlg == 0x20 && t.obuf == []) = true := by decide
/-- BE7: `rd8 IBUF+3` after 0x11223344 was written. -/
theorem test_rd8_buffer :
    leads (exec (.rd8 0x100003#22) (withInput [0x11, 0x22, 0x33, 0x44])) (fun t => t.reply == some (.data 0x44)) = true := by decide
/-- BE6: the unbacked top of the IBUF window. -/
theorem test_rd8_unbacked : leads (exec (.rd8 0x101000#22) State.reset) (fun t => t.reply == some .slverr) = true := by decide
/-- Program 5, line 2. -/
theorem test_rd16_status : leads (exec (.rd16 0x008#22) State.reset) (fun t => t.reply == some .slverr) = true := by decide
/-- RG11: ROW_BYTES of 65535 columns. -/
theorem test_rd32_row_bytes :
    leads (exec (.rd32 0x024#22) { State.reset with width := 0xFFFF }) (fun t => t.reply == some (.data 8192)) = true := by decide
/-- BE4: a misaligned word of IBUF. -/
theorem test_rd32_misaligned :
    leads (exec (.rd32 0x100002#22) (withInput [1, 2, 3, 4, 5, 6])) (fun t => t.reply == some .slverr) = true := by decide
/-- BE8: one byte of a word. -/
theorem test_wr8_buffer :
    leads (exec (.wr8 0x100001#22 0xAB) (withInput [0x11, 0x22, 0x33, 0x44]))
      (fun t => t.ibufWord 0 == 0x11AB3344 && t.reply == some .done) = true := by decide
/-- BE5: a 16-bit write changes nothing. -/
theorem test_wr16_refused :
    leads (exec (.wr16 0x200000#22 0xBEEF) State.reset) (fun t => t == { State.reset with reply := some .slverr }) = true := by
  decide
/-- BE7: a big-endian word write. -/
theorem test_wr32_big_endian :
    leads (exec (.wr32 0x100000#22 0x11223344) State.reset)
      (fun t => t.ibuf == [(0, 0x11), (1, 0x22), (2, 0x33), (3, 0x44)]) = true := by decide
/-- Program 5, line 1: BADOP, with the IE of the same write, and so IRQ. -/
theorem test_wr32_start_badop :
    leads (exec (.wr32 0x004#22 0x101) State.reset) (fun t => t.statusWord == 0x10E && t.reply == some .done) = true := by decide

/-! ## A table word placed after reset is what the next step runs -/

/-- PK10 and PM16: with no pixels, PACK and PREMUL are done at their accept. ST4: LEN = 0 is SHORT. RG13: `rd32 ID`. BE5: a 16-bit
write gets SLVERR. -/
theorem test_place_rows :
    leads (step (State.reset.withFetchWord 8 1)) (fun t => t.statusWord == 0x2) = true ∧
      leads (step (State.reset.withFetchWord 8 2)) (fun t => t.statusWord == 0x2) = true ∧
      leads (step (State.reset.withFetchWord 8 3)) (fun t => t.statusWord == 0x306) = true ∧
      leads (step (State.reset.withFetchWord 64 0x2000000000000000)) (fun t => t.reply == some (.data 0x53560001)) = true ∧
      leads (step (State.reset.withFetchWord 64 0x902000000000BEEF)) (fun t => t.trace == [(0, .slverr)]) = true := by
  decide

/-! ## Witnesses: for every statement with hypotheses, a state and operands that meet them all -/

theorem packing_inFlight : InFlight .pack packing :=
  ⟨rfl, rfl, rfl, rfl, ⟨rfl, by decide, by decide⟩, by decide, by decide⟩

/-- PK1 with 3 of 4 bytes written: the next step is the last. -/
def packingLast : State := { packing with outCount := 3 }

theorem packingLast_inFlight : InFlight .pack packingLast :=
  ⟨rfl, rfl, rfl, rfl, ⟨rfl, by decide, by decide⟩, by decide, by decide⟩

theorem premultiplying_inFlight : InFlight .premul premultiplying :=
  ⟨rfl, rfl, rfl, rfl, ⟨⟨rfl, rfl⟩, by decide, by decide⟩, by decide, by decide⟩

theorem stripping_inFlight : InFlight .strip stripping :=
  ⟨rfl, rfl, rfl, rfl, ⟨by decide, by decide, by decide⟩, by decide, by decide⟩

/-- ST1 with 2 of 3 body bytes copied: the next step is the last. -/
def strippingLast : State := { stripping with outCount := 2 }

theorem strippingLast_inFlight : InFlight .strip strippingLast :=
  ⟨rfl, rfl, rfl, rfl, ⟨by decide, by decide, by decide⟩, by decide, by decide⟩

theorem stripping_inv : stripping.Inv :=
  ⟨by decide, by decide, by decide, by decide, by decide, by decide, by decide, by decide, fun _ => ⟨.strip, stripping_inFlight⟩⟩

/-- A one-byte body, so that one step completes the command. -/
def strippingOne : State := { stripping with len := 7 }

theorem strippingOne_inFlight : InFlight .strip strippingOne :=
  ⟨rfl, rfl, rfl, rfl, ⟨by decide, by decide, by decide⟩, by decide, by decide⟩

theorem strippingOne_inv : strippingOne.Inv :=
  ⟨by decide, by decide, by decide, by decide, by decide, by decide, by decide, by decide, fun _ => ⟨.strip, strippingOne_inFlight⟩⟩

theorem witness_EncodeOfDecode :
    decode (.hosttx 0xA000000400000101#64) = .ok (.wr32 0x004#22 0x101#32) ∧ decode (.cmd 3#4) = .ok .strip := by decide

theorem witness_HardResetSetsEveryRegister : State.schedule { packing with schedule := [.hardReset, .host] } = .hardReset :: [.host] :=
  rfl

/-- SRST alone, and SRST with START (vector CK4). -/
theorem witness_SoftResetKeepsTheBuffers : (0x2#32).getLsbD 1 = true ∧ (0x3#32).getLsbD 1 = true := by decide

/-- A host with one line to run, and the turn. -/
def hostAt (line : Stmt) (s : State) : State := { s with schedule := [.host], script := [line], pos := 0 }

/-- The same, with an empty schedule: in an idle block the turn is the host's by default. -/
def hostNext (line : Stmt) (s : State) : State := { s with schedule := [], script := [line], pos := 0 }

theorem hostAt_turn (line : Stmt) (s : State) : HostHasTurn (hostAt line s) [] := .inl rfl

theorem hostNext_turn (line : Stmt) : HostHasTurn (hostNext line State.reset) [] := .inr ⟨rfl, rfl, rfl⟩

/-- The turn is the schedule's, and the turn is the default one. -/
theorem witness_StepRunsTheHostsTransaction :
    let s := hostAt (.tx 0x2000000800000000#64 (some 0)) packing
    let u := hostNext (.tx 0xA000000400000101#64 none) State.reset
    (HostHasTurn s [] ∧ s.script[s.pos]? = some (.tx 0x2000000800000000#64 (some 0)) ∧
        decode (.hosttx 0x2000000800000000#64) = .ok (.rd32 0x008#22) ∧ destOk (.rd32 0x008#22) (some 0) = true) ∧
      (HostHasTurn u [] ∧ u.script[u.pos]? = some (.tx 0xA000000400000101#64 none) ∧
        decode (.hosttx 0xA000000400000101#64) = .ok (.wr32 0x004#22 0x101#32) ∧
        destOk (.wr32 0x004#22 0x101#32) none = true) :=
  ⟨⟨hostAt_turn _ _, by decide⟩, hostNext_turn _, by decide⟩

theorem witness_StepRunsTheSelectedCommand :
    (State.schedule { packing with schedule := [.engine, .host] } = .engine :: [.host] ∧ packing.busy = true ∧
        decode (.cmd packing.opCode) = .ok .pack) ∧
      (packing.schedule = [] ∧ decode (.cmd premultiplying.opCode) = .ok .premul ∧ premultiplying.busy = true) := by decide

/-- ST1 before its START. -/
def stripReady : State := { stripping with busy := false, hdrCmf := 0, hdrFlg := 0 }

theorem start_bits : IsStart 0x1#32 ∧ IsStart 0x101#32 := ⟨⟨rfl, rfl⟩, rfl, rfl⟩

theorem witness_StartRunsTheSelectedCommand :
    stripReady.busy = false ∧ decode (.cmd stripReady.opCode) = .ok .strip ∧ IsStart 0x101#32 := ⟨rfl, by decide, start_bits.2⟩

theorem witness_IdleBlockTakesNoEngineStep :
    let s : State := { stripReady with schedule := [.engine] }
    s.schedule = .engine :: [] ∧ s.busy = false := ⟨rfl, rfl⟩

theorem witness_StepKeepsTheParameters :
    ∃ t, step { stripping with schedule := [.engine] } = .next t := by
  obtain ⟨m, h, _⟩ := exec_unit stripping_inFlight
  exact ⟨_, (engineTurn_inFlight stripping_inFlight).trans h⟩

/-- The first and the last byte of each buffer of the reference configuration. -/
theorem witness_Rd8ReturnsTheBufferByte :
    State.reset.cfg.valid = true ∧ State.reset.busy = false ∧
      (0x100000#22).toNat = 0x100000 + 0 ∧ (0x100FFF#22).toNat = 0x100000 + 4095 ∧ 4095 < State.reset.cfg.ibufBytes ∧
      (0x200000#22).toNat = 0x200000 + 0 ∧ (0x200FFF#22).toNat = 0x200000 + 4095 ∧ 4095 < State.reset.cfg.obufBytes := by
  decide

/-- The last word of each buffer. -/
theorem witness_Rd32ReturnsTheBigEndianWord :
    State.reset.cfg.valid = true ∧ State.reset.busy = false ∧ 4092 % 4 = 0 ∧
      (0x100FFC#22).toNat = 0x100000 + 4092 ∧ 4092 < State.reset.cfg.ibufBytes ∧
      (0x200FFC#22).toNat = 0x200000 + 4092 ∧ 4092 < State.reset.cfg.obufBytes := by decide

theorem witness_ReadsHaveNoSideEffect : hostAccess (.rd8 0x200045#22) = some ⟨8, 0x200045#22, none⟩ := rfl

/-- The hypotheses are those of the reads. -/
theorem witness_Wr8StoresTheByte :
    State.reset.cfg.valid = true ∧ State.reset.busy = false ∧ (0x100FFF#22).toNat = 0x100000 + 4095 ∧
      4095 < State.reset.cfg.ibufBytes ∧ (0x200000#22).toNat = 0x200000 + 0 ∧ 0 < State.reset.cfg.obufBytes := by decide

theorem witness_Wr32StoresTheBigEndianWord :
    State.reset.cfg.valid = true ∧ State.reset.busy = false ∧ 4092 % 4 = 0 ∧ (0x100FFC#22).toNat = 0x100000 + 4092 ∧
      4092 < State.reset.cfg.ibufBytes ∧ (0x200FFC#22).toNat = 0x200000 + 4092 ∧ 4092 < State.reset.cfg.obufBytes := by
  decide

theorem witness_ReadReturnsTheLastWrite :
    State.reset.cfg.valid = true ∧
      leads (exec (.wr8 0x100001#22 0xAB) State.reset) (fun t => t.reply == some .done) = true ∧
      leads (exec (.wr8 0x200FFF#22 0xAB) State.reset) (fun t => t.reply == some .done) = true := by decide

theorem witness_OperandRegisterWrites : State.reset.busy = false := rfl

theorem witness_RowBytesFollowsWidth : State.reset.busy = false := rfl

theorem witness_StatusWriteClearsDone : (0x2#32).getLsbD 1 = true ∧ (0xFFFFFFFD#32).getLsbD 1 = false := by decide

theorem witness_CtrlWriteSetsIe :
    (0x100#32).getLsbD 0 = false ∧ (0x100#32).getLsbD 1 = false ∧ (0x0#32).getLsbD 0 = false ∧ (0x0#32).getLsbD 1 = false := by
  decide

theorem witness_SlverrForExactlyTheListedCauses :
    hostAccess (.wr32 0x004#22 0x1) = some ⟨32, 0x004#22, some 0x1⟩ ∧
      BusErrorCause packing ⟨32, 0x004#22, some 0x1⟩ ∧ ¬BusErrorCause stripReady ⟨32, 0x004#22, some 0x1⟩ := by
  refine ⟨rfl, .startBusy 0x1 ⟨rfl, rfl, rfl, rfl, rfl⟩, fun h => ?_⟩
  cases h with
  | unmapped h => exact h.1 (by unfold InRegisters; decide)
  | registerSize h => exact absurd h.2 (by decide)
  | registerMisaligned h => exact absurd h.2.2 (by decide)
  | bufferSize h => exact absurd h.2 (by decide)
  | bufferMisaligned h => exact absurd h.2.2 (by decide)
  | bufferBusy h => exact absurd h.2 (by decide)
  | operandBusy h => exact absurd h.1 (by decide)
  | startBusy v h => exact absurd h.1 (by decide)

/-- CK8: a read of a busy block's OBUF. -/
theorem witness_SlverrChangesNothing :
    hostAccess (.rd32 0x200000#22) = some ⟨32, 0x200000#22, none⟩ ∧
      leads (exec (.rd32 0x200000#22) packing) (fun t => t.reply == some .slverr) = true := by decide

/-- The two ends of each unmapped range. -/
theorem witness_UnmappedOffsetsGetSlverr :
    hostAccess (.rd8 0x000030#22) = some ⟨8, 0x000030#22, none⟩ ∧
      (0x000030#22).toNat = 0x30 ∧ (0x0FFFFF#22).toNat < 0x100000 ∧
      (0x101000#22).toNat = 0x100000 + State.reset.cfg.ibufBytes ∧ (0x1FFFFF#22).toNat < 0x200000 ∧
      (0x201000#22).toNat = 0x200000 + State.reset.cfg.obufBytes ∧
      0x200000 + State.reset.cfg.obufBytes ≤ (0x3FFFFF#22).toNat ∧ State.reset.cfg.valid = true := by decide

theorem witness_BuffersAreLockedWhileBusy :
    packing.busy = true ∧ hostAccess (.wr8 0x100000#22 5) = some ⟨8, 0x100000#22, some 5⟩ ∧
      0x100000 ≤ (0x100000#22).toNat ∧ (0x2FFFFF#22).toNat < 0x300000 := by decide

theorem witness_RegistersWhileBusy :
    packing.busy = true ∧ IsStart 0x1#32 ∧ (0x100#32).getLsbD 0 = false ∧ (0x100#32).getLsbD 1 = false ∧
      (0x2#32).getLsbD 1 = true := ⟨rfl, start_bits.1, rfl, rfl, rfl⟩

/-- Program 4, line 9: an operand write during BUSY; and a soft reset. -/
theorem witness_HostCannotDisturbACommand :
    let s := hostAt (.tx 0xA000001000000200#64 none) packing
    let u := hostAt (.tx 0xA000000400000002#64 none) packing
    (s.schedule = .host :: [] ∧ s.busy = true ∧ leads (step s) (fun t => t.busy) = true) ∧
      (u.schedule = .host :: [] ∧ u.busy = true ∧ leads (step u) (fun t => !t.busy) = true) := by decide

/-- Every outcome of the checks: BADOP; each of PACK's, PREMUL's and STRIP's, in their order. -/
theorem witness_AcceptRunsTheChecksInOrder :
    stripReady.busy = false ∧ IsStart 0x1#32 ∧
      leads (exec (.wr32 0x004#22 1) State.reset) (fun t => t.errCode == 1) = true ∧
      leads (exec (.wr32 0x004#22 1) { packing with busy := false, dst := 2 }) (fun t => t.errCode == 2) = true ∧
      leads (exec (.wr32 0x004#22 1) { packing with busy := false, src := 4090 }) (fun t => t.errCode == 4) = true ∧
      leads (exec (.wr32 0x004#22 1) { packing with busy := false, src := 4086 }) (fun t => t.errCode == 0) = true ∧
      leads (exec (.wr32 0x004#22 1) { premultiplying with busy := false, src := 2 }) (fun t => t.errCode == 2) = true ∧
      leads (exec (.wr32 0x004#22 1) { stripReady with len := 5 }) (fun t => t.errCode == 3) = true ∧
      leads (exec (.wr32 0x004#22 1) stripReady) (fun t => t.errCode == 0) = true :=
  ⟨rfl, start_bits.1, by decide, by decide, by decide, by decide, by decide, by decide, by decide⟩

/-- CK1 fails before HDR is captured, ST7 after it. -/
theorem witness_FailedCommandHasNoOutput :
    State.reset.busy = false ∧ IsStart 0x1#32 ∧ leads (exec (.wr32 0x004#22 1) State.reset) (fun t => t.err) = true ∧
      leads (exec (.wr32 0x004#22 1) { stripReady with ibuf := [(0, 0x7F), (1, 0x20)] }) (fun t => t.err && t.errCode == 5) =
        true :=
  ⟨rfl, start_bits.1, by decide, by decide⟩

/-- ST1 has units to write; ST2, PK10 and PM16 have none. -/
theorem witness_PassedCommandStartsOrCompletes :
    IsStart 0x1#32 ∧ stripReady.busy = false ∧ decodeCode stripReady.opCode = .ok .strip ∧
      leads (exec (.wr32 0x004#22 1) stripReady) (fun t => !t.err && t.busy) = true ∧
      leads (exec (.wr32 0x004#22 1) { stripReady with len := 6 }) (fun t => !t.err && t.done) = true ∧
      leads (exec (.wr32 0x004#22 1) { State.reset with opCode := 1, height := 5 }) (fun t => !t.err && t.done) = true ∧
      leads (exec (.wr32 0x004#22 1) { State.reset with opCode := 2, height := 7 }) (fun t => !t.err && t.done) = true :=
  ⟨start_bits.1, rfl, by decide, by decide, by decide, by decide, by decide⟩

/-- Two blocks that differ in what the previous command left. -/
theorem witness_AcceptIgnoresThePast :
    let u : State := { stripReady with done := true, err := true, errCode := 4, outCount := 7, hdrCmf := 0x55 }
    stripReady.busy = false ∧ u.busy = false ∧ IsStart 0x1#32 ∧ u.cfg = stripReady.cfg ∧ u.opCode = stripReady.opCode ∧
      u.src = stripReady.src ∧ u.dst = stripReady.dst ∧ u.len = stripReady.len ∧ u.width = stripReady.width ∧
      u.height = stripReady.height ∧ ∀ i, u.ibufByte i = stripReady.ibufByte i :=
  ⟨rfl, rfl, start_bits.1, rfl, rfl, rfl, rfl, rfl, rfl, rfl, fun _ => rfl⟩

/-- ST8's header 0x0800 agrees with 0x789C in the two fields. -/
theorem witness_StripValidatesTwoFieldsOnly :
    let m : Memory := [(0, 0x08), (1, 0x00), (2, 0x5A)]
    stripReady.busy = false ∧ IsStart 0x1#32 ∧ stripReady.opCode = 3 ∧
      (State.ibufByte { stripReady with ibuf := m } stripReady.src.toNat).toNat % 16 =
        (stripReady.ibufByte stripReady.src.toNat).toNat % 16 ∧
      (State.ibufByte { stripReady with ibuf := m } (stripReady.src.toNat + 1)).getLsbD 5 =
        (stripReady.ibufByte (stripReady.src.toNat + 1)).getLsbD 5 :=
  ⟨rfl, start_bits.1, rfl, by decide, by decide⟩

/-- A middle step and a last step of each command. -/
theorem witness_PackStepWritesOneByte : InFlight .pack packing ∧ InFlight .pack packingLast :=
  ⟨packing_inFlight, packingLast_inFlight⟩

theorem witness_PremulStepWritesOneWord : InFlight .premul premultiplying ∧ InFlight .premul { premultiplying with outCount := 0 } :=
  ⟨premultiplying_inFlight, rfl, rfl, rfl, rfl, ⟨⟨rfl, rfl⟩, by decide, by decide⟩, by decide, by decide⟩

/-- The last clause: a block with another first trailer byte, which is the first byte past the body. -/
theorem witness_StripStepCopiesOneByte :
    InFlight .strip stripping ∧ InFlight .strip strippingLast ∧
      ∀ j, stripping.src.toNat + 2 ≤ j → j ≤ stripping.src.toNat + stripping.len.toNat - 5 →
        State.ibufByte { stripping with ibuf := Memory.write stripping.ibuf 5 0x55 } j = stripping.ibufByte j := by
  refine ⟨stripping_inFlight, strippingLast_inFlight, fun j _ hj => ?_⟩
  have : j ≤ 4 := hj
  exact (State.ibufByte_writeIbuf stripping 5 j 0x55).trans (if_neg (by omega))

/-- PK1's output in OBUF, and pixels 9 (the last), 10 (padding) and 31 of its one word. -/
theorem witness_PackedRowWordView :
    let t : State := { State.reset with obuf := [(0, 0xFF), (1, 0xC0), (2, 0x00), (3, 0x00)] }
    (∀ k < packDstSpan packing, t.obufByte (packing.dst.toNat + k) = packOut packing k) ∧ 0 < packing.height.toNat ∧
      0 < rowBytes packing.width / 4 ∧ 9 < 32 ∧ 10 < 32 ∧ 31 < 32 := by decide

theorem witness_WholeOperationFunctions : 3 < rowBytes packing.width ∧ 7 < 8 ∧ 2 < 3 := by decide

/-- A block with another byte outside the container. -/
theorem witness_EngineStaysInItsSpans :
    InFlight .strip stripping ∧
      ∀ i, stripping.src.toNat ≤ i → i < stripping.src.toNat + srcSpan .strip stripping →
        State.ibufByte { stripping with ibuf := Memory.write stripping.ibuf 100 0x55 } i = stripping.ibufByte i := by
  refine ⟨stripping_inFlight, fun i _ hi => ?_⟩
  have : i < 9 := hi
  exact (State.ibufByte_writeIbuf stripping 100 i 0x55).trans (if_neg (by omega))

theorem witness_OutCountWhileBusy : stripping.Inv ∧ stripping.busy = true := ⟨stripping_inv, rfl⟩

theorem witness_ResetMeetsTheInvariant : Params.valid { base := 0x400000, ibufBytes := 8, obufBytes := 0x100000 } = true := by
  decide

theorem witness_StepKeepsTheInvariant : stripping.Inv ∧ ∃ t, step stripping = .next t := by
  obtain ⟨m, h, _⟩ := exec_unit stripping_inFlight
  exact ⟨stripping_inv, _, (engineTurn_inFlight stripping_inFlight).trans h⟩

theorem witness_NoStepFaults : stripping.Inv := stripping_inv

theorem busyFor_one {s : State} (h : s.busy = true) : busyFor 1 s := by
  intro m hm t ht
  obtain rfl : m = 0 := by omega
  exact stepsTo_zero.mp ht ▸ h

/-- One step of a one-byte STRIP: accepted, and completed. -/
theorem witness_ResultLaw :
    strippingOne.Inv ∧ InFlight .strip strippingOne ∧ strippingOne.outCount = 0 ∧ busyFor 1 strippingOne ∧
      ∃ t, stepsTo 1 strippingOne t ∧ t.busy = false ∧ t.done = true := by
  obtain ⟨m, h, _⟩ := exec_unit strippingOne_inFlight
  exact ⟨strippingOne_inv, strippingOne_inFlight, rfl, busyFor_one rfl, _,
    stepsTo_last.mpr ⟨_, stepsTo_zero.mpr rfl, (engineTurn_inFlight strippingOne_inFlight).trans h⟩, rfl, rfl⟩

theorem witness_CommandTakesExactlyItsUnits :
    stripping.Inv ∧ InFlight .strip stripping ∧ stripping.outCount = 0 ∧ stripping.schedule = [] ∧ 0 < units .strip stripping :=
  ⟨stripping_inv, stripping_inFlight, rfl, rfl, by decide⟩

/-- One step of a three-byte STRIP, then a soft reset. -/
theorem witness_SoftResetLeavesAPrefix :
    stripping.Inv ∧ InFlight .strip stripping ∧ stripping.outCount = 0 ∧ busyFor 1 stripping ∧
      (∃ t, stepsTo 1 stripping t ∧ t.busy = true) ∧ (0x2#32).getLsbD 1 = true := by
  obtain ⟨m, h, _⟩ := exec_unit stripping_inFlight
  exact ⟨stripping_inv, stripping_inFlight, rfl, busyFor_one rfl, ⟨_,
    stepsTo_last.mpr ⟨_, stepsTo_zero.mpr rfl, (engineTurn_inFlight stripping_inFlight).trans h⟩, rfl⟩, rfl⟩

/-- The host at a `bz` and at a label with the default turn, and at a `bnz` with a scheduled one in a busy block;
t7 is the last temporary. -/
theorem witness_ScriptBranches :
    let s : State := { State.reset with script := [.bz 7 0x2 4, .bnz 7 0x2 4, .label 4] }
    HostHasTurn s [] ∧ HostHasTurn { s with pos := 1, busy := true, schedule := [.host, .engine] } [.engine] ∧
      HostHasTurn { s with pos := 2 } [] ∧ 7 < 8 ∧ Stmt.label 4 ∈ s.script ∧ s.script[0]? = some (.bz 7 0x2 4) ∧
      s.script[1]? = some (.bnz 7 0x2 4) ∧ s.script[2]? = some (.label 4) :=
  ⟨.inr ⟨rfl, rfl, rfl⟩, .inl rfl, .inr ⟨rfl, rfl, rfl⟩, by decide⟩

theorem witness_HostRecordsTheResponse : 7 < 8 ∧ 0 < 8 ∧ 0 ≠ 7 ∧ State.reply { packing with reply := some .slverr } = some .slverr :=
  by decide

/-- A line that is refused and one that is not, each with a scheduled and with the default turn. -/
theorem witness_OnlyInvalidLinesAreRefused :
    let bad : Stmt := .tx 0x3000000000000000#64 (some 0)
    let good : Stmt := .tx 0x2000000800000000#64 (some 0)
    (HostHasTurn (hostAt bad packing) [] ∧ (hostAt bad packing).script[(hostAt bad packing).pos]? = some bad ∧
        Stmt.wf [bad] bad = false) ∧
      (HostHasTurn (hostNext good State.reset) [] ∧
        (hostNext good State.reset).script[(hostNext good State.reset).pos]? = some good ∧ Stmt.wf [good] good = true) :=
  ⟨⟨hostAt_turn _ _, by decide⟩, hostNext_turn _, by decide⟩

/-- At `halt` in a busy block with a scheduled turn, at `halt` in an idle one, and past the last line. -/
theorem witness_EndedRunStays :
    (HostHasTurn (hostAt .halt packing) [] ∧ (hostAt .halt packing).runEnded = true) ∧
      (HostHasTurn (hostNext .halt State.reset) [] ∧ (hostNext .halt State.reset).runEnded = true ∧
        (hostNext .halt State.reset).schedule = []) ∧
      (HostHasTurn State.reset [] ∧ State.reset.script[State.reset.pos]? = none ∧ State.reset.schedule = []) :=
  ⟨⟨hostAt_turn _ _, by decide⟩, ⟨hostNext_turn _, by decide⟩, .inr ⟨rfl, rfl, rfl⟩, by decide⟩

theorem witness_PseudoInstructionsExpandToTheirAccesses :
    (∀ t l, Pseudo.waitDone 7 0 = .waitDone t l → t < 8) ∧ scriptWf (expand (.waitDone 7 0)) = true :=
  ⟨fun t l h => by cases h; decide, by decide⟩

end Sys2Proof.Machine.Tests
end

section
/-! The parameters of the machine (00_scope.md R7): what each turn does to them, and the invariant of the state after reset. -/

namespace Sys2Proof.Machine

/-! ## Every turn keeps the parameters -/

@[simp] theorem State.accept_cfg (s : State) : s.accept.cfg = s.cfg := by
  rcases accept_cases s with ⟨e, h, _⟩ | ⟨e, h, _⟩ | ⟨c, w, _, _, hw, h⟩
  · rw [h]; rfl
  · rw [h]; rfl
  · have hcfg : w.cfg = s.cfg := by
      rcases hw with ⟨_, rfl⟩ | ⟨_, rfl⟩ <;> rfl
    rw [h]
    split_ifs <;> exact hcfg

@[simp] theorem State.retire_cfg (s : State) (dest : Option Nat) : (s.retire dest).cfg = s.cfg := by
  obtain ⟨_, _, _, h⟩ := s.retire_eq dest
  rw [h]

theorem writeReg_cfg {s t : State} {r : Reg} {v : Word} (h : writeReg s r v = some t) : t.cfg = s.cfg := by
  rcases writeReg_some h with rfl | rfl | rfl | rfl | ⟨_, rfl⟩ | ⟨_, _, _, _, _, _, _, rfl⟩
  · rfl
  · rfl
  · rfl
  · rfl
  · exact State.accept_cfg _
  · rfl

theorem exec_access_cfg {s t : State} {i : Instr} {a : HostAccess} (ha : hostAccess i = some a)
    (h : exec i s = .next t) : t.cfg = s.cfg := by
  rcases exec_access_inv ha h with rfl | ⟨_, rfl⟩ | ⟨_, hbuf⟩ | ⟨r, v, u, hu, rfl⟩
  · rfl
  · rfl
  · rcases hbuf with ⟨_, _, _, rfl⟩ | ⟨_, _, _, rfl⟩ | ⟨_, _, _, _, rfl⟩ | ⟨_, _, _, _, rfl⟩ <;> rfl
  · rw [State.answer_cfg, writeReg_cfg hu]

theorem hostTurn_cfg {s t : State} (h : hostTurn s = .next t) : t.cfg = s.cfg := by
  rcases hostTurn_cases h with ⟨_, rfl⟩ | ⟨i, a, dest, w, ha, hw, rfl⟩
  · rfl
  · rw [State.retire_cfg, exec_access_cfg ha hw]

theorem engineTurn_cfg {s t : State} (h : engineTurn s = .next t) : t.cfg = s.cfg := by
  rcases engineTurn_cases h with ⟨_, rfl⟩ | ⟨c, hb, _, hexec⟩
  · rfl
  · rw [exec_command_frame hb hexec]

/-- Settles O13: whichever turn the step takes, the turn keeps the parameters. -/
theorem stepKeepsTheParameters : Obligations.StepKeepsTheParameters := by
  intro s t h
  obtain ⟨rest, hhost | hengine | rfl⟩ := step_cases h
  · exact (hostTurn_cfg hhost :)
  · exact (engineTurn_cfg hengine :)
  · rfl

/-! ## The state after reset -/

/-- An idle block with empty buffers, nothing counted and no error meets the invariant as soon as its parameters are valid. -/
theorem State.resetWith_inv {cfg : Params} (h : cfg.valid = true) : (State.resetWith cfg).Inv where
  params := h
  ibufWf := List.Pairwise.nil
  obufWf := List.Pairwise.nil
  ibufBacked := by simp [State.resetWith]
  obufBacked := by simp [State.resetWith]
  countFits := Nat.zero_le _
  codeKnown := Nat.zero_le _
  codeOfErr := by simp [State.resetWith]
  running := by simp [State.resetWith]

/-- Settles O48: the reference configuration is one of the valid ones. -/
theorem resetMeetsTheInvariant : Obligations.ResetMeetsTheInvariant :=
  ⟨State.resetWith_inv (by decide), fun _ => State.resetWith_inv⟩

end Sys2Proof.Machine
end

section
/-! The invariant of the machine (40_command.md R112, R114, R115): each state operation keeps it, so each turn does. -/

namespace Sys2Proof.Machine

variable {s t : State}

/-! ## The operations that keep the invariant -/

/-- The host's side, the schedule, IE and HDR do not enter into the invariant, and DONE may fall but not rise. -/
theorem State.Inv.outside (h : s.Inv) {done : Bool} (hd : done = true → s.done = true) {ie : Bool} {cmf flg : Byte}
    {reply : Option Reply} {pos : Nat} {temps : Vector Word 8} {trace : List (Nat × Reply)} {schedule : List Turn} :
    State.Inv { s with
      ie := ie, done := done, hdrCmf := cmf, hdrFlg := flg, reply := reply, pos := pos, temps := temps, trace := trace,
      schedule := schedule } :=
  { h with
    running := fun hb => by
      obtain ⟨c, hc⟩ := h.running hb
      have hdone : done = false := Bool.eq_false_iff.mpr fun hup => by cases hc.notDone.symm.trans (hd hup)
      exact ⟨c, hc.congr hb hdone rfl rfl rfl rfl rfl rfl rfl rfl rfl⟩ }

/-- Other contents of the buffers, canonical and inside their sizes, leave the invariant as it is. -/
theorem State.Inv.buffers (h : s.Inv) {m n : Memory} (hm : Memory.wf m) (hn : Memory.wf n)
    (hmb : ∀ c ∈ m, c.1 < s.cfg.ibufBytes) (hnb : ∀ c ∈ n, c.1 < s.cfg.obufBytes) :
    State.Inv { s with ibuf := m, obuf := n } :=
  { h with
    ibufWf := hm
    obufWf := hn
    ibufBacked := hmb
    obufBacked := hnb
    running := fun hb => (h.running hb).imp fun _ hc => hc.buffers m n }

theorem State.Inv.setSchedule (h : s.Inv) (rest : List Turn) : State.Inv { s with schedule := rest } := h.outside id

theorem State.Inv.setPos (h : s.Inv) (pos : Nat) : State.Inv { s with pos := pos } := h.outside id

theorem State.Inv.setIe (h : s.Inv) (ie : Bool) : State.Inv { s with ie := ie } := h.outside id

theorem State.Inv.answer (h : s.Inv) (r : Reply) : (s.answer r).Inv := h.outside id

theorem State.Inv.clearDone (h : s.Inv) : s.clearDone.Inv := h.outside fun hd => by cases hd

theorem State.Inv.captureHdr (h : s.Inv) : s.captureHdr.Inv := h.outside id

theorem State.Inv.retire (h : s.Inv) (dest : Option Nat) : (s.retire dest).Inv := by
  obtain ⟨trace, temps, pos, heq⟩ := s.retire_eq dest
  rw [heq]
  exact h.outside id

theorem State.Inv.writeIbuf (h : s.Inv) {k : Nat} (hk : k < s.cfg.ibufBytes) (v : Byte) : (s.writeIbuf k v).Inv :=
  h.buffers (Memory.write_wf _ _ _ h.ibufWf) h.obufWf (Memory.write_backed _ _ _ _ hk h.ibufBacked) h.obufBacked

theorem State.Inv.writeObuf (h : s.Inv) {k : Nat} (hk : k < s.cfg.obufBytes) (v : Byte) : (s.writeObuf k v).Inv :=
  h.buffers h.ibufWf (Memory.write_wf _ _ _ h.obufWf) h.ibufBacked (Memory.write_backed _ _ _ _ hk h.obufBacked)

/-- An aligned word that begins inside IBUF ends inside it, because the size is a multiple of 4 (00_scope.md R7). -/
theorem State.Inv.writeIbufWord (h : s.Inv) {k : Nat} (hk : k < s.cfg.ibufBytes) (h4 : k % 4 = 0) (v : Word) :
    (s.writeIbufWord k v).Inv := by
  obtain ⟨_, hsize, _⟩ := Params.bounds h.params
  have hlast : k + 3 < s.cfg.ibufBytes := by omega
  exact h.buffers (Memory.writeWord_wf _ _ _ h.ibufWf) h.obufWf (Memory.writeWord_backed _ _ _ _ hlast h.ibufBacked)
    h.obufBacked

theorem State.Inv.writeObufWord (h : s.Inv) {k : Nat} (hk : k < s.cfg.obufBytes) (h4 : k % 4 = 0) (v : Word) :
    (s.writeObufWord k v).Inv := by
  obtain ⟨_, _, _, _, hsize, _⟩ := Params.bounds h.params
  have hlast : k + 3 < s.cfg.obufBytes := by omega
  exact h.buffers h.ibufWf (Memory.writeWord_wf _ _ _ h.obufWf) h.ibufBacked
    (Memory.writeWord_backed _ _ _ _ hlast h.obufBacked)

theorem State.Inv.softReset (h : s.Inv) : s.softReset.Inv :=
  { h with
    countFits := Nat.zero_le _
    codeKnown := Nat.zero_le _
    codeOfErr := by simp
    running := by simp }

theorem State.Inv.hardReset (h : s.Inv) : s.hardReset.Inv :=
  { h.softReset with
    ibufWf := List.Pairwise.nil
    obufWf := List.Pairwise.nil
    ibufBacked := by simp
    obufBacked := by simp
    running := by simp }

/-- An idle block has no command whose operands could change under it. -/
theorem State.Inv.setOperands (h : s.Inv) (hb : s.busy = false) (code : BitVec 4) (src dst len : Word)
    (width height : BitVec 16) :
    State.Inv { s with opCode := code, src := src, dst := dst, len := len, width := width, height := height } :=
  { h with running := fun hbusy => by cases hb.symm.trans hbusy }

/-! ## The accept -/

theorem CmdError.code_known (e : CmdError) : e.code.toNat ≤ 6 ∧ e.code ≠ 0#4 := by cases e <;> decide

theorem State.Inv.clearOutcome (h : s.Inv) (hb : s.busy = false) : s.clearOutcome.Inv :=
  { h with
    countFits := Nat.zero_le _
    codeKnown := Nat.zero_le _
    codeOfErr := by simp
    running := by simp [hb] }

theorem State.Inv.fail (h : s.Inv) (e : CmdError) : (s.fail e).Inv :=
  { h with
    codeKnown := e.code_known.1
    codeOfErr := by simp [e.code_known.2]
    running := by simp }

theorem State.Inv.completeOk (h : s.Inv) : s.completeOk.Inv := { h with running := by simp }

theorem State.Inv.beginRun (h : s.Inv) {c : Command} (hrun : InFlight c s.beginRun) : s.beginRun.Inv :=
  { h with running := fun _ => ⟨c, hrun⟩ }

/-- A command whose checks passed and that has a unit to write is in flight once BUSY is set, with nothing counted yet
(R114). -/
theorem InFlight.of_clearOutcome {c : Command} (hcode : decodeCode s.opCode = .ok c) (hfits : CommandFits c s)
    (hunits : units c s ≠ 0) : InFlight c s.clearOutcome.beginRun where
  busy := rfl
  notDone := rfl
  noError := rfl
  code := hcode
  fits := by
    obtain ⟨hshape, hsrc, hdst⟩ := hfits
    exact ⟨by cases c <;> exact hshape, by cases c <;> exact hsrc, by cases c <;> exact hdst⟩
  whole := Nat.zero_mod _
  more := by
    have hindex : s.clearOutcome.beginRun.unitIndex (unitSize c) = 0 := Nat.zero_div _
    have hsame : units c s.clearOutcome.beginRun = units c s := by cases c <;> rfl
    omega

/-- The captured header is no part of what keeps a command in flight. -/
theorem InFlight.captureHdr {c : Command} (h : InFlight c s.beginRun) : InFlight c s.captureHdr.beginRun :=
  h.congr rfl h.notDone rfl rfl rfl rfl rfl rfl rfl rfl rfl

theorem State.Inv.accept (h : s.Inv) (hb : s.busy = false) : s.accept.Inv := by
  have hclear := h.clearOutcome hb
  rcases accept_cases s with ⟨e, heq, _⟩ | ⟨e, heq, _⟩ | ⟨c, w, hcode, hfits, hw, heq⟩
  · exact heq ▸ hclear.fail e
  · exact heq ▸ hclear.captureHdr.fail e
  · have hpassed : w.Inv ∧ (units c s ≠ 0 → InFlight c w.beginRun) := by
      rcases hw with ⟨_, rfl⟩ | ⟨_, rfl⟩
      · exact ⟨hclear, InFlight.of_clearOutcome hcode hfits⟩
      · exact ⟨hclear.captureHdr, fun hu => (InFlight.of_clearOutcome hcode hfits hu).captureHdr⟩
    obtain ⟨hinv, hrun⟩ := hpassed
    rw [heq]
    split_ifs with hu
    · exact hinv.completeOk
    · exact hinv.beginRun (hrun hu)

/-! ## The turns -/

theorem State.Inv.writeReg (h : s.Inv) {r : Reg} {v : Word} (hw : writeReg s r v = some t) : t.Inv := by
  rcases writeReg_some hw with rfl | rfl | rfl | rfl | ⟨hb, rfl⟩ | ⟨hb, _, _, _, _, _, _, rfl⟩
  · exact h
  · exact h.clearDone
  · exact h.softReset
  · exact h.setIe _
  · exact (h.setIe _).accept hb
  · exact h.setOperands hb _ _ _ _ _ _

theorem State.Inv.access (h : s.Inv) {i : Instr} {a : HostAccess} (ha : hostAccess i = some a)
    (he : exec i s = .next t) : t.Inv := by
  rcases exec_access_inv ha he with rfl | ⟨_, rfl⟩ | ⟨_, hbuf⟩ | ⟨_, _, u, hu, rfl⟩
  · exact h.answer _
  · exact h.answer _
  · rcases hbuf with ⟨_, v, hk, rfl⟩ | ⟨_, v, hk, rfl⟩ | ⟨_, v, hk, h4, rfl⟩ | ⟨_, v, hk, h4, rfl⟩
    · exact (h.writeIbuf hk v).answer _
    · exact (h.writeObuf hk v).answer _
    · exact (h.writeIbufWord hk h4 v).answer _
    · exact (h.writeObufWord hk h4 v).answer _
  · exact (h.writeReg hu).answer _

theorem State.Inv.hostTurn (h : s.Inv) (ht : hostTurn s = .next t) : t.Inv := by
  rcases hostTurn_cases ht with ⟨pos, rfl⟩ | ⟨_, _, dest, _, ha, hw, rfl⟩
  · exact h.setPos pos
  · exact (h.access ha hw).retire dest

/-- One more unit counted stays within the destination span, so within OBUF; BUSY stays 1 only while a unit is left. -/
theorem State.Inv.afterUnit (h : s.Inv) {c : Command} (hc : InFlight c s) {m : Memory} (hm : Memory.wf m)
    (hmb : ∀ x ∈ m, x.1 < s.cfg.obufBytes) : (s.afterUnit c m).Inv := by
  obtain ⟨_, _, _, _, _, _, hsize⟩ := Params.bounds h.params
  obtain ⟨hcount, hspan⟩ := hc.count_next hsize
  have hdst := hc.fits.dstFits
  exact { h with
    obufWf := hm
    obufBacked := hmb
    countFits := by
      show (s.outCount + BitVec.ofNat 21 (unitSize c)).toNat ≤ s.cfg.obufBytes
      omega
    running := fun hb => ⟨c, (hc.afterUnit hsize m (of_decide_eq_true hb)).1⟩ }

theorem State.Inv.engineTurn (h : s.Inv) (ht : engineTurn s = .next t) : t.Inv := by
  cases hb : s.busy with
  | false =>
    rw [engineTurn_idle hb] at ht
    exact Host.Outcome.next.inj ht ▸ h
  | true =>
    obtain ⟨c, hc⟩ := h.running hb
    obtain ⟨m, hexec, hwf, hbacked, _⟩ := exec_unit hc
    rw [engineTurn_inFlight hc, hexec] at ht
    exact Host.Outcome.next.inj ht ▸ h.afterUnit hc (hwf h.obufWf) (hbacked h.obufBacked)

/-- Settles O49: a step is a host's turn, an engine's turn or a hard reset, and each keeps the invariant. -/
theorem stepKeepsTheInvariant : Obligations.StepKeepsTheInvariant := by
  intro s t h hstep
  obtain ⟨rest, hhost | hengine | rfl⟩ := step_cases hstep
  · exact (h.setSchedule rest).hostTurn hhost
  · exact (h.setSchedule rest).engineTurn hengine
  · exact (h.setSchedule rest).hardReset

end Sys2Proof.Machine
end

section
/-! The register file (10_state.md R21 to R34, R41): what reads return, what writes do, the bits that neither touch; and the
engine's turn of a busy block. -/

namespace Sys2Proof.Machine

/-! ## Reserved bits -/

/-- A word below `2 ^ n` has no bit in common with a mask of bits `n` and above. -/
theorem and_eq_zero_of_lt {x m : Word} (n : Nat) (hx : x.toNat < 2 ^ n) (hm : ∀ i < n, m.getLsbD i = false) :
    x &&& m = 0#32 := by
  apply BitVec.eq_of_getLsbD_eq
  intro i _
  rw [BitVec.getLsbD_and, BitVec.getLsbD_zero]
  rcases Nat.lt_or_ge i n with hi | hi
  · rw [hm i hi, Bool.and_false]
  · have hbit : x.getLsbD i = false :=
      Nat.testBit_lt_two_pow (hx.trans_le (Nat.pow_le_pow_right (by decide) hi))
    rw [hbit, Bool.false_and]

/-- Clearing the bits of a mask leaves every other bit as it was. -/
theorem getLsbD_and_not {v m : Word} {i : Nat} (hi : i < 32) (hm : m.getLsbD i = false) :
    (v &&& ~~~m).getLsbD i = v.getLsbD i := by
  rw [BitVec.getLsbD_and, BitVec.getLsbD_not, hm]
  simp [hi]

/-- A field of `n` bits at bit 0 is the same when only bits `n` and above are cleared. -/
theorem setWidth_and_not {v m : Word} {n : Nat} (hn : n ≤ 32) (hm : ∀ i < n, m.getLsbD i = false) :
    (v &&& ~~~m).setWidth n = v.setWidth n := by
  apply BitVec.eq_of_getLsbD_eq
  intro i hi
  simp only [BitVec.getLsbD_setWidth, getLsbD_and_not (v := v) (hi.trans_le hn) (hm i hi)]

theorem statusWord_and_reservedBits (s : State) : s.statusWord &&& reservedBits .status = 0#32 := by
  have hall : ∀ (irq err done busy : Bool) (code : BitVec 4),
      (0#20 ++ code ++ 0#4 ++ BitVec.ofBool irq ++ BitVec.ofBool err ++ BitVec.ofBool done ++ BitVec.ofBool busy) &&&
        reservedBits .status = 0#32 := by decide
  exact hall s.irq s.err s.done s.busy s.errCode

theorem readReg_and_reservedBits (s : State) (r : Reg) : readReg s r &&& reservedBits r = 0#32 := by
  have hvalue := readReg_toNat s r
  cases r
  case id | src | dst | len => exact BitVec.and_zero
  case ctrl => simp only [readReg, reservedBits]; cases s.ie <;> rfl
  case status => exact statusWord_and_reservedBits s
  case op => exact and_eq_zero_of_lt 4 (hvalue ▸ s.opCode.isLt) (by decide)
  case width => exact and_eq_zero_of_lt 16 (hvalue ▸ s.width.isLt) (by decide)
  case height => exact and_eq_zero_of_lt 16 (hvalue ▸ s.height.isLt) (by decide)
  case outCount => exact and_eq_zero_of_lt 21 (hvalue ▸ s.outCount.isLt) (by decide)
  case rowBytes =>
    have hrow : (readReg s .rowBytes).toNat = (s.width.toNat + 31) / 32 * 4 := hvalue
    have hwidth := s.width.isLt
    exact and_eq_zero_of_lt 14 (by omega) (by decide)
  case hdr =>
    have hhdr : (readReg s .hdr).toNat = s.hdrCmf.toNat * 2 ^ 8 + s.hdrFlg.toNat := hvalue
    have hcmf := s.hdrCmf.isLt
    have hflg := s.hdrFlg.isLt
    exact and_eq_zero_of_lt 16 (by omega) (by decide)

/-- No register's write looks at a reserved bit of the data. -/
theorem writeReg_clear_reservedBits (s : State) (r : Reg) (v : Word) :
    writeReg s r (v &&& ~~~(reservedBits r)) = writeReg s r v := by
  cases r
  case id | rowBytes | outCount | hdr => rfl
  case src | dst | len => simp only [writeReg, reservedBits, BitVec.not_zero, BitVec.and_allOnes]
  case ctrl =>
    have hbit : ∀ i < 32, (reservedBits .ctrl).getLsbD i = false →
        (v &&& ~~~(reservedBits .ctrl)).getLsbD i = v.getLsbD i := fun _ => getLsbD_and_not
    simp only [writeReg, writeCtrl, hbit 0 (by decide) (by decide), hbit 1 (by decide) (by decide),
      hbit 8 (by decide) (by decide)]
  case status =>
    simp only [writeReg, getLsbD_and_not (m := reservedBits .status) (i := 1) (by decide) (by decide)]
  case op => simp only [writeReg, setWidth_and_not (m := reservedBits .op) (n := 4) (by decide) (by decide)]
  case width => simp only [writeReg, setWidth_and_not (m := reservedBits .width) (n := 16) (by decide) (by decide)]
  case height => simp only [writeReg, setWidth_and_not (m := reservedBits .height) (n := 16) (by decide) (by decide)]

/-- Settles O26. -/
theorem reservedBitsReadZeroAndIgnoreWrites : Obligations.ReservedBitsReadZeroAndIgnoreWrites := by
  intro s r v
  refine ⟨readReg_and_reservedBits s r, ?_⟩
  rw [exec_wr32_reg, exec_wr32_reg, writeReg_clear_reservedBits]

/-! ## Reads -/

/-- Settles O46: a busy state that meets the invariant has a command in flight, whose next unit is one of its own. -/
theorem outCountWhileBusy : Obligations.OutCountWhileBusy := by
  intro s hinv hb
  obtain ⟨c, hc⟩ := hinv.running hb
  refine ⟨c, _, hc.code, exec_rd32_reg .outCount s, ?_⟩
  rw [readReg_toNat]
  refine ⟨hc.whole, ?_⟩
  calc s.outCount.toNat = s.unitIndex (unitSize c) * unitSize c := hc.count
    _ < units c s * unitSize c := Nat.mul_lt_mul_of_pos_right hc.more (unitSize_pos c)
    _ = dstSpan c s := (dstSpan_eq c s).symm

/-- Settles O16: the layout of every register is `readReg_toNat`. -/
theorem rd32ReturnsTheRegister : Obligations.Rd32ReturnsTheRegister := fun s r =>
  ⟨readReg s r, exec_rd32_reg r s, readReg_toNat s r⟩

/-! ## The engine's turn -/

/-- When the engine has the turn of a busy block, the step is the engine's turn. -/
theorem step_of_engineHasTurn {s : State} {rest : List Turn}
    (h : s.schedule = .engine :: rest ∨ (s.schedule = [] ∧ rest = [])) (hb : s.busy = true) :
    step s = engineTurn { s with schedule := rest } := by
  rcases h with h | ⟨h, rfl⟩
  · simp only [step, h, takeTurn]
  · have hsame : { s with schedule := [] } = s := by rw [← h]
    rw [hsame]
    simp only [step, h, defaultTurn, hb, if_true, takeTurn]

/-- The instruction of a command code is a command's. -/
theorem decode_cmd_ok {code : BitVec 4} {i : Instr} (h : decode (.cmd code) = .ok i) :
    ∃ c, decodeCode code = .ok c ∧ c.instr = i := by
  cases hd : decodeCode code with
  | error e => simp [decode, hd, Except.map] at h
  | ok c => exact ⟨c, rfl, by simpa [decode, hd, Except.map] using h⟩

/-- Settles O10. -/
theorem stepRunsTheSelectedCommand : Obligations.StepRunsTheSelectedCommand := by
  intro s rest i hturn hb hdecode
  obtain ⟨c, hcode, rfl⟩ := decode_cmd_ok hdecode
  rw [step_of_engineHasTurn hturn hb]
  simp only [engineTurn, hb, hcode, if_true]

/-! ## Writes -/

/-- A register write with an effect answers OKAY with it (20_memory.md R66). -/
theorem exec_wr32_reg_some {s t : State} {r : Reg} {v : Word} (h : writeReg s r v = some t) :
    exec (.wr32 (regOffset r) v) s = .next { t with reply := some .done } := by
  rw [exec_wr32_reg, h]
  rfl

/-- Settles O22: the six operand registers differ only in the field and its width. -/
theorem operandRegisterWrites : Obligations.OperandRegisterWrites := by
  intro s v hb
  have hwrite (r : Reg) (t : State) (h : writeReg s r v = whenIdle s t) :
      exec (.wr32 (regOffset r) v) s = .next { t with reply := some .done } :=
    exec_wr32_reg_some (h.trans (whenIdle_idle hb t))
  rw [← BitVec.setWidth_eq_extractLsb' (by decide), ← BitVec.setWidth_eq_extractLsb' (by decide)]
  exact ⟨hwrite .op _ rfl, hwrite .src _ rfl, hwrite .dst _ rfl, hwrite .width _ rfl, hwrite .height _ rfl,
    hwrite .len _ rfl⟩

/-- Settles O23. -/
theorem readOnlyRegistersIgnoreWrites : Obligations.ReadOnlyRegistersIgnoreWrites := by
  rintro s r v (rfl | rfl | rfl | rfl) <;> exact exec_wr32_reg_some rfl

theorem writeReg_status_one {s : State} {v : Word} (h1 : v.getLsbD 1 = true) :
    writeReg s .status v = some s.clearDone := by
  simp only [writeReg, h1, if_true]

theorem writeReg_status_zero {s : State} {v : Word} (h1 : v.getLsbD 1 = false) : writeReg s .status v = some s := by
  simp only [writeReg, h1, Bool.false_eq_true, if_false]

/-- Settles O24: without DONE there is no IRQ. -/
theorem statusWriteClearsDone : Obligations.StatusWriteClearsDone := fun _ _ =>
  ⟨fun h1 => ⟨_, exec_wr32_reg_some (writeReg_status_one h1), rfl, rfl⟩,
    fun h1 => exec_wr32_reg_some (writeReg_status_zero h1)⟩

theorem writeReg_ctrl_ie {s : State} {v : Word} (h0 : v.getLsbD 0 = false) (h1 : v.getLsbD 1 = false) :
    writeReg s .ctrl v = some { s with ie := v.getLsbD 8 } := by
  simp only [writeReg, writeCtrl, h0, h1, Bool.false_and, Bool.false_eq_true, if_false]

/-- Settles O25. -/
theorem ctrlWriteSetsIe : Obligations.CtrlWriteSetsIe := fun _ _ h0 h1 =>
  ⟨_, exec_wr32_reg_some (writeReg_ctrl_ie h0 h1), rfl, rfl⟩

/-! ## IRQ -/

theorem statusWord_irq (s : State) : s.statusWord.getLsbD 3 = s.irq := by
  simp only [State.statusWord, BitVec.getLsbD_append]
  simp

/-- Settles O54. -/
theorem irqIsDoneAndIe : Obligations.IrqIsDoneAndIe := ⟨fun s => ⟨rfl, statusWord_irq s⟩, rfl⟩

end Sys2Proof.Machine
end

section
/-! Host accesses to the buffers (20_memory.md R63, R64, R66 to R68, R70, R72): what each access answers by where its offset
leads, what a byte or a word of a buffer is after a write, and the accesses that get SLVERR. -/

namespace Sys2Proof.Machine

/-! ## A backed offset -/

section
variable {s : State} {off : Offset} {i : Nat}

theorem readReply8_ibuf (hl : locate s.cfg off = .ibuf i) (hb : s.busy = false) :
    readReply8 s off = .data ((s.ibufByte i).setWidth 32) := by
  simp [readReply8, hl, hb]

theorem readReply8_obuf (hl : locate s.cfg off = .obuf i) (hb : s.busy = false) :
    readReply8 s off = .data ((s.obufByte i).setWidth 32) := by
  simp [readReply8, hl, hb]

theorem readReply32_ibuf (hl : locate s.cfg off = .ibuf i) (hb : s.busy = false) (h4 : i % 4 = 0) :
    readReply32 s off = .data (s.ibufWord i) := by
  simp [readReply32, hl, hb, h4]

theorem readReply32_obuf (hl : locate s.cfg off = .obuf i) (hb : s.busy = false) (h4 : i % 4 = 0) :
    readReply32 s off = .data (s.obufWord i) := by
  simp [readReply32, hl, hb, h4]

theorem writeEffect8_ibuf (hl : locate s.cfg off = .ibuf i) (hb : s.busy = false) (v : Word) :
    writeEffect8 s off v = some (s.writeIbuf i (v.setWidth 8)) := by
  simp [writeEffect8, hl, hb]

theorem writeEffect8_obuf (hl : locate s.cfg off = .obuf i) (hb : s.busy = false) (v : Word) :
    writeEffect8 s off v = some (s.writeObuf i (v.setWidth 8)) := by
  simp [writeEffect8, hl, hb]

theorem writeEffect32_ibuf (hl : locate s.cfg off = .ibuf i) (hb : s.busy = false) (h4 : i % 4 = 0) (v : Word) :
    writeEffect32 s off v = some (s.writeIbufWord i v) := by
  simp [writeEffect32, hl, hb, h4]

theorem writeEffect32_obuf (hl : locate s.cfg off = .obuf i) (hb : s.busy = false) (h4 : i % 4 = 0) (v : Word) :
    writeEffect32 s off v = some (s.writeObufWord i v) := by
  simp [writeEffect32, hl, hb, h4]

end

/-! ## Reads and writes, by their reply and their effect -/

theorem exec_rd8_of_reply {s : State} {off : Offset} {r : Reply} (h : readReply8 s off = r) :
    exec (.rd8 off) s = .next { s with reply := some r } := h ▸ rfl

theorem exec_rd32_of_reply {s : State} {off : Offset} {r : Reply} (h : readReply32 s off = r) :
    exec (.rd32 off) s = .next { s with reply := some r } := h ▸ rfl

theorem exec_wr8_of_effect {s t : State} {off : Offset} {v : Word} (h : writeEffect8 s off v = some t) :
    exec (.wr8 off v) s = .next (t.answer .done) := by
  show Host.Outcome.next (s.answerWrite (writeEffect8 s off v)) = _
  rw [h]
  rfl

theorem exec_wr32_of_effect {s t : State} {off : Offset} {v : Word} (h : writeEffect32 s off v = some t) :
    exec (.wr32 off v) s = .next (t.answer .done) := by
  show Host.Outcome.next (s.answerWrite (writeEffect32 s off v)) = _
  rw [h]
  rfl

theorem byte_setWidth_toNat (b : Byte) : (b.setWidth 32).toNat = b.toNat := BitVec.toNat_setWidth_of_le (by decide)

theorem byteOf_toNat (v : Word) (j : Nat) : (byteOf v j).toNat = v.toNat / 2 ^ (8 * (3 - j)) % 256 := by
  have hshift : 24 - 8 * j = 8 * (3 - j) := by omega
  rw [byteOf, BitVec.extractLsb'_toNat, Nat.shiftRight_eq_div_pow, hshift]

/-- Settles O14. -/
theorem rd8ReturnsTheBufferByte : Obligations.Rd8ReturnsTheBufferByte := by
  intro s off i hp hb
  refine ⟨fun ho hi => ?_, fun ho hi => ?_⟩
  · exact ⟨_, byte_setWidth_toNat _, exec_rd8_of_reply (readReply8_ibuf (locate_ibuf _ _ _ ho hi) hb)⟩
  · exact ⟨_, byte_setWidth_toNat _, exec_rd8_of_reply (readReply8_obuf (locate_obuf _ _ _ hp ho hi) hb)⟩

/-- Settles O15: the word a read answers is `{b[i], b[i+1], b[i+2], b[i+3]}`. -/
theorem rd32ReturnsTheBigEndianWord : Obligations.Rd32ReturnsTheBigEndianWord := by
  intro s off i hp hb h4
  refine ⟨fun ho hi => ?_, fun ho hi => ?_⟩
  · exact ⟨_, wordOf_toNat _ _ _ _, exec_rd32_of_reply (readReply32_ibuf (locate_ibuf _ _ _ ho hi) hb h4)⟩
  · exact ⟨_, wordOf_toNat _ _ _ _, exec_rd32_of_reply (readReply32_obuf (locate_obuf _ _ _ hp ho hi) hb h4)⟩

@[simp] theorem State.ibufByte_answer (s : State) (r : Reply) (i : Nat) : (s.answer r).ibufByte i = s.ibufByte i := rfl

@[simp] theorem State.obufByte_answer (s : State) (r : Reply) (i : Nat) : (s.answer r).obufByte i = s.obufByte i := rfl

/-- Settles O19. -/
theorem wr8StoresTheByte : Obligations.Wr8StoresTheByte := by
  intro s off v i hp hb
  refine ⟨fun ho hi => ?_, fun ho hi => ?_⟩
  · refine ⟨_, exec_wr8_of_effect (writeEffect8_ibuf (locate_ibuf _ _ _ ho hi) hb v), rfl, ?_, fun j hj => ?_⟩
    · simp
    · simp [hj]
  · refine ⟨_, exec_wr8_of_effect (writeEffect8_obuf (locate_obuf _ _ _ hp ho hi) hb v), rfl, ?_, fun j hj => ?_⟩
    · simp
    · simp [hj]

/-- Settles O20: inside the word each byte is a byte of the data, and outside it nothing is written. -/
theorem wr32StoresTheBigEndianWord : Obligations.Wr32StoresTheBigEndianWord := by
  intro s off v i hp hb h4
  have hinside : ∀ j < 4, i ≤ i + j ∧ i + j < i + 4 := by omega
  have houtside : ∀ j, j < i ∨ i + 4 ≤ j → ¬(i ≤ j ∧ j < i + 4) := by omega
  refine ⟨fun ho hi => ?_, fun ho hi => ?_⟩
  · refine ⟨_, exec_wr32_of_effect (writeEffect32_ibuf (locate_ibuf _ _ _ ho hi) hb h4 v), rfl, fun j hj => ?_,
      fun j hj => ?_⟩
    · rw [State.ibufByte_answer, State.ibufByte_writeIbufWord, if_pos (hinside j hj), Nat.add_sub_cancel_left, byteOf_toNat]
    · rw [State.ibufByte_answer, State.ibufByte_writeIbufWord, if_neg (houtside j hj)]
  · refine ⟨_, exec_wr32_of_effect (writeEffect32_obuf (locate_obuf _ _ _ hp ho hi) hb h4 v), rfl, fun j hj => ?_,
      fun j hj => ?_⟩
    · rw [State.obufByte_answer, State.obufByte_writeObufWord, if_pos (hinside j hj), Nat.add_sub_cancel_left, byteOf_toNat]
    · rw [State.obufByte_answer, State.obufByte_writeObufWord, if_neg (houtside j hj)]

/-! ## A byte read after a byte write -/

/-- Everything an 8-bit write that gets OKAY can have done: it stored the byte that its offset names, in an idle block. -/
theorem writeEffect8_some {s t : State} {off : Offset} {v : Word} (h : writeEffect8 s off v = some t) :
    s.busy = false ∧
      ((∃ i, locate s.cfg off = .ibuf i ∧ off.toNat = 0x100000 + i ∧ t = s.writeIbuf i (v.setWidth 8)) ∨
        (∃ i, locate s.cfg off = .obuf i ∧ off.toNat = 0x200000 + i ∧ t = s.writeObuf i (v.setWidth 8))) := by
  rcases locate_cases s.cfg off with ⟨hl, _⟩ | ⟨i, hl, ho, _⟩ | ⟨i, hl, ho, _⟩ | ⟨hl, _⟩ <;>
    simp only [writeEffect8, hl, reduceCtorEq] at h
  · split_ifs at h with hb
    exact ⟨by simpa using hb, .inl ⟨i, hl, ho, (Option.some.inj h).symm⟩⟩
  · split_ifs at h with hb
    exact ⟨by simpa using hb, .inr ⟨i, hl, ho, (Option.some.inj h).symm⟩⟩

/-- An 8-bit write that gets OKAY had an effect. -/
theorem exec_wr8_done {s t : State} {off : Offset} {v : Word} (h : exec (.wr8 off v) s = .next t)
    (hr : t.reply = some .done) : ∃ u, writeEffect8 s off v = some u ∧ t = u.answer .done := by
  have ht : s.answerWrite (writeEffect8 s off v) = t := Host.Outcome.next.inj h
  cases hw : writeEffect8 s off v with
  | some u => exact ⟨u, rfl, by rw [← ht, hw]; rfl⟩
  | none =>
    rw [hw] at ht
    rw [← ht] at hr
    cases hr

/-- What an 8-bit read answers depends on the parameters, on BUSY and on the byte its offset names. -/
theorem readReply8_congr {s t : State} {off : Offset} (hc : t.cfg = s.cfg) (hb : t.busy = s.busy)
    (hi : ∀ i, off.toNat = 0x100000 + i → t.ibufByte i = s.ibufByte i)
    (ho : ∀ i, off.toNat = 0x200000 + i → t.obufByte i = s.obufByte i) : readReply8 t off = readReply8 s off := by
  simp only [readReply8, hc, hb]
  rcases locate_cases s.cfg off with ⟨hl, _⟩ | ⟨i, hl, hoff, _⟩ | ⟨i, hl, hoff, _⟩ | ⟨hl, _⟩ <;> simp only [hl]
  · rw [hi i hoff]
  · rw [ho i hoff]

/-- The low byte of a word, zero-extended. -/
theorem setWidth_byte_setWidth (v : Word) : (v.setWidth 8).setWidth 32 = v &&& 0xFF#32 := by
  apply BitVec.eq_of_toNat_eq
  rw [byte_setWidth_toNat, BitVec.toNat_setWidth, BitVec.toNat_and]
  exact (Nat.and_two_pow_sub_one_eq_mod v.toNat 8).symm

/-- The byte that an 8-bit write stored is what an 8-bit read of its offset answers. -/
theorem readReply8_of_write {s t : State} {off : Offset} {v : Word} (h : writeEffect8 s off v = some t) :
    readReply8 t off = .data (v &&& 0xFF#32) := by
  rw [← setWidth_byte_setWidth]
  obtain ⟨hb, ⟨i, hl, _, rfl⟩ | ⟨i, hl, _, rfl⟩⟩ := writeEffect8_some h
  · rw [readReply8_ibuf (s := s.writeIbuf i _) hl hb, State.ibufByte_writeIbuf, if_pos rfl]
  · rw [readReply8_obuf (s := s.writeObuf i _) hl hb, State.obufByte_writeObuf, if_pos rfl]

/-- Every other offset names another byte, which the write left as it was. -/
theorem readReply8_of_write_ne {s t : State} {off off' : Offset} {v : Word} (h : writeEffect8 s off v = some t)
    (hne : off' ≠ off) : readReply8 t off' = readReply8 s off' := by
  have hne' : off'.toNat ≠ off.toNat := fun he => hne (BitVec.eq_of_toNat_eq he)
  obtain ⟨_, ⟨i, _, ho, rfl⟩ | ⟨i, _, ho, rfl⟩⟩ := writeEffect8_some h
  · exact readReply8_congr rfl rfl (fun k hk => (State.ibufByte_writeIbuf s i k _).trans (if_neg (by omega)))
      fun _ _ => rfl
  · exact readReply8_congr rfl rfl (fun _ _ => rfl)
      fun k hk => (State.obufByte_writeObuf s i k _).trans (if_neg (by omega))

/-- Settles O21: the bus response is no part of what a read answers. -/
theorem readReturnsTheLastWrite : Obligations.ReadReturnsTheLastWrite := by
  intro s t off v _ hexec hreply
  obtain ⟨u, hu, rfl⟩ := exec_wr8_done hexec hreply
  have hanswer (o : Offset) : readReply8 (u.answer .done) o = readReply8 u o :=
    readReply8_congr rfl rfl (fun _ _ => rfl) fun _ _ => rfl
  refine ⟨⟨_, exec_rd8_of_reply rfl, ?_⟩, fun off' hne => ⟨_, _, exec_rd8_of_reply rfl, exec_rd8_of_reply rfl, ?_⟩⟩
  · rw [hanswer, readReply8_of_write hu]
  · rw [hanswer, readReply8_of_write_ne hu hne]

end Sys2Proof.Machine
end

section
/-! Bus responses (20_memory.md R62, R66 to R68, R70): what every read and every write answers, and the accesses that get SLVERR
wherever their data would go. -/

namespace Sys2Proof.Machine

variable {s : State} {i : Instr} {a : HostAccess}

/-! ## Every read and every write -/

theorem readReply8_ne_done (s : State) (off : Offset) : readReply8 s off ≠ .done := by
  unfold readReply8
  cases locate s.cfg off with
  | registers | unmapped => nofun
  | ibuf k | obuf k => dsimp only; split_ifs <;> nofun

theorem readReply32_ne_done (s : State) (off : Offset) : readReply32 s off ≠ .done := by
  unfold readReply32
  cases locate s.cfg off with
  | registers => cases regAt off.toNat <;> nofun
  | ibuf k | obuf k => dsimp only; split_ifs <;> nofun
  | unmapped => nofun

/-- A read completes with SLVERR or with data, and changes the response only (R70). -/
theorem exec_read (ha : hostAccess i = some a) (hr : a.write = none) :
    ∃ r, r ≠ .done ∧ exec i s = .next (s.answer r) := by
  cases i <;> cases ha
  case rd8 off => exact ⟨_, readReply8_ne_done s off, rfl⟩
  case rd16 => exact ⟨.slverr, nofun, rfl⟩
  case rd32 off => exact ⟨_, readReply32_ne_done s off, rfl⟩
  all_goals cases hr

/-- A write completes with SLVERR and no effect, or with OKAY and its effect (R66). -/
theorem exec_write {v : Word} (ha : hostAccess i = some a) (hw : a.write = some v) :
    ∃ effect, exec i s = .next (s.answerWrite effect) := by
  cases i <;> cases ha
  case wr8 | wr32 => exact ⟨_, rfl⟩
  case wr16 => exact ⟨none, rfl⟩
  all_goals cases hw

/-- Settles O18. -/
theorem readsHaveNoSideEffect : Obligations.ReadsHaveNoSideEffect := by
  intro s i a ha hr
  obtain ⟨r, _, hexec⟩ := exec_read (s := s) ha hr
  exact ⟨r, hexec⟩

/-- Settles O28: by whether the access reads or writes, and by its response. -/
theorem slverrChangesNothing : Obligations.SlverrChangesNothing := by
  intro s i a ha
  cases hw : a.write with
  | none =>
    obtain ⟨r, hdone, hexec⟩ := exec_read (s := s) ha hw
    refine ⟨_, r, hexec, rfl, ?_, ?_⟩
    · rintro rfl
      exact ⟨rfl, rfl⟩
    · intro hr
      cases r with
      | data v => exact ⟨v, rfl, rfl⟩
      | done => exact absurd rfl hdone
      | slverr => exact absurd rfl hr
  | some v =>
    obtain ⟨effect, hexec⟩ := exec_write (s := s) ha hw
    cases effect with
    | none => exact ⟨_, .slverr, hexec, rfl, fun _ => ⟨rfl, rfl⟩, fun hr => absurd rfl hr⟩
    | some t => exact ⟨_, .done, hexec, rfl, nofun, fun _ => rfl⟩

/-- Settles O17: a 16-bit access has no meaning at any offset. -/
theorem halfwordAccessesGetSlverr : Obligations.HalfwordAccessesGetSlverr := fun _ _ _ => ⟨rfl, rfl⟩

/-! ## Outside the register file -/

/-- Outside the register file an access that is locked out by BUSY, or that names no backed byte, gets SLVERR (R67, R68). -/
theorem exec_outside_slverr (ha : hostAccess i = some a) (hreg : ¬InRegisters a.off)
    (h : s.busy = true ∨ ¬InBuffers s.cfg a.off) : exec i s = .next (s.answer .slverr) := by
  have hplace : locate s.cfg a.off = .unmapped ∨
      s.busy = true ∧ ((∃ k, locate s.cfg a.off = .ibuf k) ∨ ∃ k, locate s.cfg a.off = .obuf k) := by
    unfold InBuffers at h
    rcases locate_cases s.cfg a.off with ⟨_, hin⟩ | ⟨k, hl, _⟩ | ⟨k, hl, _⟩ | ⟨hl, _⟩
    · exact absurd hin hreg
    · exact .inr ⟨h.resolve_right (by omega), .inl ⟨k, hl⟩⟩
    · exact .inr ⟨h.resolve_right (by omega), .inr ⟨k, hl⟩⟩
    · exact .inl hl
  cases i <;> cases ha
  case rd16 | wr16 => rfl
  all_goals
    simp only [exec, execRd8, execRd32, execWr8, execWr32, readReply8, readReply32, writeEffect8, writeEffect32] at hplace ⊢
    rcases hplace with hl | ⟨hb, ⟨k, hl⟩ | ⟨k, hl⟩⟩
    · simp only [hl, State.answerWrite]
    all_goals simp only [hl, hb, Bool.true_or, if_true, State.answerWrite]

/-- Settles O29: none of the three ranges meets the register file or the backed part of a window. -/
theorem unmappedOffsetsGetSlverr : Obligations.UnmappedOffsetsGetSlverr := by
  intro s i a ha hoff
  have hplace : ¬InRegisters a.off ∧ ¬InBuffers s.cfg a.off := by
    unfold InRegisters InBuffers
    rcases hoff with hgap | htop | ⟨htop, hp⟩
    · omega
    · omega
    · have hbounds := Params.bounds hp
      omega
  exact exec_outside_slverr ha hplace.1 (.inr hplace.2)

/-- Settles O30: the windows lie above the register file. -/
theorem buffersAreLockedWhileBusy : Obligations.BuffersAreLockedWhileBusy := by
  intro s i a hb ha hlow _
  have hreg : ¬InRegisters a.off := by
    unfold InRegisters
    omega
  exact exec_outside_slverr ha hreg (.inl hb)

end Sys2Proof.Machine
end

section
/-! The host's side of an access: the bus address and its offset (20_memory.md R60), the script line that makes the access and
what is recorded of it (30_encoding.md R98, 60_exceptions.md R198). -/

namespace Sys2Proof.Machine

/-- Settles O60: an offset has 22 bits, so `BASE + off` is inside the block's 4 MiB. -/
theorem busAddressSelectsItsOffset : Obligations.BusAddressSelectsItsOffset := by
  intro p addr off
  have hoff := off.isLt
  unfold selectOffset
  split_ifs with hin
  · rw [Option.some.injEq, BitVec.toNat_eq, BitVec.toNat_ofNat]
    omega
  · exact iff_of_false nofun (by omega)

/-- A host's turn at a valid transaction line runs the line's instruction and retires it. -/
theorem hostTurn_tx {s t : State} {r : Record} {dest : Option Nat} {i : Instr}
    (hline : s.script[s.pos]? = some (.tx r dest)) (hdecode : decodeTx r = .ok i) (hdest : destOk i dest = true)
    (hexec : exec i s = .next t) : hostTurn s = .next (t.retire dest) := by
  simp only [hostTurn, hline, hdecode, hdest, hexec, if_true]

/-- Settles O9: what a record decodes to is a host access, and every host access completes. -/
theorem stepRunsTheHostsTransaction : Obligations.StepRunsTheHostsTransaction := by
  intro s rest r dest i hturn hline hdecode hdest
  obtain ⟨a, ha⟩ := decodeTx_access hdecode
  obtain ⟨t, hexec⟩ := exec_access_next { s with schedule := rest } i a ha
  exact ⟨t, hexec, (step_of_hostHasTurn hturn).trans (hostTurn_tx hline hdecode hdest hexec)⟩

theorem setTemp_eq_set {temps : Vector Word 8} {n : Nat} (hn : n < 8) (v : Word) :
    setTemp temps n v = temps.set n v := dif_pos hn

/-- What retiring an access with a response records (R98, R198). -/
theorem State.retire_of_reply {s : State} {r : Reply} (h : s.reply = some r) (dest : Option Nat) :
    s.retire dest = { s with
      trace := s.trace ++ [(s.pos, r)], pos := s.pos + 1
      temps := dest.elim s.temps fun n => setTemp s.temps n r.rdata } := by
  cases dest <;> simp only [State.retire, h, Option.elim]

/-- Settles O56. -/
theorem hostRecordsTheResponse : Obligations.HostRecordsTheResponse := by
  intro s r n hn hr
  refine ⟨⟨_, State.retire_of_reply hr none, rfl⟩, _, State.retire_of_reply hr (some n), rfl, ?_, fun m hm hne => ?_⟩
  · simp only [Option.elim, setTemp_eq_set hn, Vector.getElem_set_self]
    cases r <;> rfl
  · simp only [Option.elim, setTemp_eq_set hn, Vector.getElem_set_ne hn hm hne.symm]

end Sys2Proof.Machine
end

section
/-! Encoding and decoding (30_encoding.md R95, R96, R99): an instruction's encoding is the one that decodes to it, and the records
that decode are the valid ones. -/

namespace Sys2Proof

/-! ## An instruction and its encoding -/

/-- Decoding a record keeps every field of it: encoding the result puts the same fields back. -/
theorem encode_of_decodeTx {r : Record} {i : Instr} (h : decodeTx r = .ok i) : encode i = .hosttx r := by
  unfold decodeTx at h
  split_ifs at h with hz hw h0 h1 h2 hd h0 h1 h2 <;> cases h
  all_goals
    have hr := hosttxRecord_of_fields r (not_not.mp hz)
    simp_all [encode]

/-- The record of an access decodes to that access. -/
theorem decodeTx_of_encode {r : Record} {i : Instr} (h : encode i = .hosttx r) : decodeTx r = .ok i := by
  have hrecord (w : Bool) (sz : BitVec 3) (off : Offset) (data : Word) := hosttxRecord_fields w sz off data
  cases i <;> cases h <;> simp [decodeTx, hrecord]

/-- An instruction is decoded from its own encoding and from no other (R95, R99). -/
theorem decode_ok_iff (e : Encoding) (i : Instr) : decode e = .ok i ↔ encode i = e := by
  cases e with
  | hosttx r => exact ⟨encode_of_decodeTx, decodeTx_of_encode⟩
  | cmd code =>
    constructor
    · intro h
      obtain ⟨c, hcode, rfl⟩ := Machine.decode_cmd_ok h
      rw [(decodeCode_ok_iff code c).mp hcode]
      cases c <;> rfl
    · intro h
      cases i <;> cases h <;> rfl

/-- Settles O2. -/
theorem decodeOfEncode : Obligations.DecodeOfEncode := fun i => (decode_ok_iff _ i).mpr rfl

/-- Settles O3. -/
theorem encodeOfDecode : Obligations.EncodeOfDecode := fun e i => (decode_ok_iff e i).mp

/-! ## The valid records -/

/-- The three match patterns of R99 with bit 63 equal to `w`, as fields. -/
theorem Record.kind_pattern_iff (r : Record) (w : Bool) :
    (r.kind = BitVec.ofNat 64 (w.toNat * 2 ^ 63 + (0#3).toNat * 2 ^ 60) ∨
      r.kind = BitVec.ofNat 64 (w.toNat * 2 ^ 63 + (1#3).toNat * 2 ^ 60) ∨
      r.kind = BitVec.ofNat 64 (w.toNat * 2 ^ 63 + (2#3).toNat * 2 ^ 60)) ↔
      r.isWrite = w ∧ r.zeroBits = 0#6 ∧ (r.size = 0#3 ∨ r.size = 1#3 ∨ r.size = 2#3) := by
  simp only [Record.kind_eq_iff]
  tauto

/-- W, SZ, bits 59:54 and DATA of the records that R99's rows allow. -/
theorem Record.wf_iff (r : Record) :
    r.wf = true ↔
      r.zeroBits = 0#6 ∧ (r.size = 0#3 ∨ r.size = 1#3 ∨ r.size = 2#3) ∧ (r.isWrite = false → r.data = 0#32) := by
  have hread : (r.kind = 0x0000000000000000#64 ∨ r.kind = 0x1000000000000000#64 ∨ r.kind = 0x2000000000000000#64) ↔ _ :=
    Record.kind_pattern_iff r false
  have hwrite : (r.kind = 0x8000000000000000#64 ∨ r.kind = 0x9000000000000000#64 ∨ r.kind = 0xA000000000000000#64) ↔ _ :=
    Record.kind_pattern_iff r true
  simp only [Record.wf, hread, hwrite]
  cases r.isWrite <;> split_ifs <;> simp_all [Record.lowWord_eq_zero_iff]

/-- Settles O4: each test of the decoder is one of the conditions on the fields. -/
theorem decoderAcceptsExactlyValidRecords : Obligations.DecoderAcceptsExactlyValidRecords := by
  intro r
  rw [Record.wf_iff, decodeTx]
  split_ifs <;> simp_all

/-! ## The rows of the two tables -/

/-- Settles O1: each word is the encoding of its instruction. -/
theorem sampleWordsDecode : Obligations.SampleWordsDecode := by
  simp only [Obligations.SampleWordsDecode, decode_ok_iff]
  decide

/-- Settles O5. -/
theorem commandCodes : Obligations.CommandCodes := by
  unfold Obligations.CommandCodes
  decide

end Sys2Proof
end

section
/-! The host's script (30_encoding.md R98, R100, R102): which lines a host's turn refuses, where labels and branches lead,
what a START runs, and what the pseudo-instructions expand to. -/

namespace Sys2Proof.Machine

/-! ## Valid lines -/

/-- The place of a decoded access's read data, by bit 63 of its record. -/
theorem destOk_of_decodeTx {r : Record} {i : Instr} (h : decodeTx r = .ok i) (dest : Option Nat) :
    destOk i dest = dest.elim r.isWrite fun t => !r.isWrite && decide (t < 8) := by
  unfold decodeTx at h
  split_ifs at h with _ hw <;> cases h <;> cases dest <;> simp [destOk, hw]

/-- A transaction line is valid exactly when its record decodes and its read data has a place. -/
theorem Stmt.wf_tx_iff (script : List Stmt) (r : Record) (dest : Option Nat) :
    Stmt.wf script (.tx r dest) = true ↔ ∃ i, decodeTx r = .ok i ∧ destOk i dest = true := by
  have hdest : Stmt.wf script (.tx r dest) = (r.wf && dest.elim r.isWrite fun t => !r.isWrite && decide (t < 8)) := by
    cases dest
    · rfl
    · exact Bool.and_assoc ..
  rw [hdest, Bool.and_eq_true, ← decoderAcceptsExactlyValidRecords r]
  constructor
  · rintro ⟨⟨i, hi⟩, hd⟩
    exact ⟨i, hi, (destOk_of_decodeTx hi dest).trans hd⟩
  · rintro ⟨i, hi, hd⟩
    exact ⟨⟨i, hi⟩, (destOk_of_decodeTx hi dest).symm.trans hd⟩

/-! ## Refusals -/

/-- A branch with a temporary t0 to t7 and a label of the script goes to the label's line or to the next. -/
theorem branch_of_label {s : State} {t l line : Nat} (ht : t < 8) (hl : findLabel s.script l = some line) (mask : Word)
    (onZero : Bool) :
    branch s t mask l onZero =
      .next { s with pos := if decide (s.temps[t] &&& mask = 0) = onZero then line else s.pos + 1 } := by
  simp only [branch, ht, hl, dif_pos]

/-- A label of the script is found. -/
theorem findLabel_of_mem {script : List Stmt} {l : Nat} (h : Stmt.label l ∈ script) :
    ∃ line, findLabel script l = some line :=
  Option.ne_none_iff_exists'.mp fun hnone => (findLabel_spec script l).1.mp hnone h

/-- A branch is refused exactly when it names no temporary of t0 to t7 or no label of the script. -/
theorem branch_refused_iff (s : State) (t : Nat) (mask : Word) (l : Nat) (onZero : Bool) :
    (∃ why, branch s t mask l onZero = .refused why) ↔ (decide (t < 8) && s.script.contains (.label l)) = false := by
  by_cases ht : t < 8
  · by_cases hmem : Stmt.label l ∈ s.script
    · obtain ⟨line, hl⟩ := findLabel_of_mem hmem
      simp [branch_of_label ht hl, ht, hmem]
    · simp [branch, ht, (findLabel_spec s.script l).1.mpr hmem, hmem]
  · simp [branch, ht]

/-- A host's turn at a transaction line is refused exactly when the line is not valid. -/
theorem hostTurn_tx_refused_iff {s : State} {r : Record} {dest : Option Nat}
    (hline : s.script[s.pos]? = some (.tx r dest)) :
    (∃ why, hostTurn s = .refused why) ↔ Stmt.wf s.script (.tx r dest) = false := by
  rw [← Bool.not_eq_true, Stmt.wf_tx_iff]
  cases hdecode : decodeTx r with
  | error e => simp [hostTurn, hline, hdecode]
  | ok i =>
    obtain ⟨a, ha⟩ := decodeTx_access hdecode
    obtain ⟨t, hexec⟩ := exec_access_next s i a ha
    cases hdest : destOk i dest <;> simp [hostTurn, hline, hdecode, hdest, hexec]

/-- A host's turn is refused exactly when its line is not valid (R96, R98). -/
theorem hostTurn_refused_iff {s : State} {line : Stmt} (hline : s.script[s.pos]? = some line) :
    (∃ why, hostTurn s = .refused why) ↔ line.wf s.script = false := by
  cases line with
  | tx r dest => exact hostTurn_tx_refused_iff hline
  | label l => simp [hostTurn, hline, Stmt.wf]
  | bz t mask l =>
    simp only [hostTurn, hline]
    exact branch_refused_iff s t mask l true
  | bnz t mask l =>
    simp only [hostTurn, hline]
    exact branch_refused_iff s t mask l false
  | halt => simp [hostTurn, hline, Stmt.wf]

/-- Settles O57. -/
theorem onlyInvalidLinesAreRefused : Obligations.OnlyInvalidLinesAreRefused := by
  intro s rest line hturn hline
  rw [step_of_hostHasTurn hturn]
  exact hostTurn_refused_iff (s := { s with schedule := rest }) hline

/-! ## Labels and branches -/

/-- Settles O55: the line of the label is the one that `findLabel` finds. -/
theorem scriptBranches : Obligations.ScriptBranches := by
  intro s rest hturn
  rw [step_of_hostHasTurn hturn]
  refine ⟨fun l hline => by simp only [hostTurn, hline], fun t mask l ht hmem => ?_⟩
  obtain ⟨line, hl⟩ := findLabel_of_mem hmem
  have hbranch := branch_of_label (s := { s with schedule := rest }) ht hl mask
  refine ⟨line, (findLabel_spec s.script l).2 line hl, fun hline => ?_, fun hline => ?_⟩
  · simp only [hostTurn, hline, hbranch, decide_eq_true_eq]
  · simp only [hostTurn, hline, hbranch, decide_eq_false_iff_not, ite_not]

/-! ## The START write -/

/-- A command's meaning in an idle block whose OP.CODE selects it is the accept (40_command.md R110). -/
theorem exec_command_idle {s : State} {c : Command} (hb : s.busy = false) (hcode : decodeCode s.opCode = .ok c) :
    exec c.instr s = .next s.accept := by
  cases c <;> simp [exec, Command.instr, execPack, execPremul, execStrip, State.accept, hb, hcode]

/-- Settles O11. -/
theorem startRunsTheSelectedCommand : Obligations.StartRunsTheSelectedCommand := by
  intro s v i hb hv hdecode
  obtain ⟨c, hcode, rfl⟩ := decode_cmd_ok hdecode
  exact ⟨_, exec_command_idle (s := { s with ie := v.getLsbD 8 }) hb hcode, exec_start s v hb hv⟩

/-! ## Pseudo-instructions -/

/-- A `wr32` line is valid in every script. -/
theorem wr32At_wf (script : List Stmt) (off : Offset) (v : Word) : Stmt.wf script (wr32At off v) = true :=
  (Stmt.wf_tx_iff ..).mpr ⟨.wr32 off v, decodeTx_of_encode rfl, rfl⟩

/-- An `rd32` line is valid in every script when it names a temporary t0 to t7. -/
theorem rd32At_wf (script : List Stmt) (off : Offset) {t : Nat} (ht : t < 8) : Stmt.wf script (rd32At off t) = true :=
  (Stmt.wf_tx_iff ..).mpr ⟨.rd32 off, decodeTx_of_encode rfl, decide_eq_true ht⟩

/-- The expansion of a pseudo-instruction is valid script. -/
theorem expand_wf (p : Pseudo) (h : ∀ t l, p = .waitDone t l → t < 8) : scriptWf (expand p) = true := by
  cases p with
  | waitDone t l =>
    have ht := h t l rfl
    simp only [scriptWf, expand, List.all_cons, List.all_nil, rd32At_wf _ _ ht]
    simp [Stmt.wf, ht]
  | pack | premul | strip | ack | srst => simp [scriptWf, expand, wr32At_wf]

/-- Settles O59. -/
theorem pseudoInstructionsExpandToTheirAccesses : Obligations.PseudoInstructionsExpandToTheirAccesses :=
  ⟨expand_wf, fun _ _ _ _ _ _ => ⟨rfl, rfl, rfl, fun _ _ => rfl, rfl, rfl⟩⟩

end Sys2Proof.Machine
end

section
/-! Runs of a running command (40_command.md R112, R115 to R118): the engine's turn of a command in flight, the units of an
uninterrupted run, and the result law for every interleaving. -/

namespace Sys2Proof.Machine

variable {c : Command} {s s₀ t : State}

/-! ## No fault -/

/-- The engine's turn of a busy block writes the next unit of its command, inside OBUF; of an idle block it does nothing. -/
theorem engineTurn_next_of_inv (h : s.Inv) : ∃ t, engineTurn s = .next t := by
  cases hb : s.busy with
  | false => exact ⟨s, engineTurn_idle hb⟩
  | true =>
    obtain ⟨c, hc⟩ := h.running hb
    obtain ⟨m, hexec, _⟩ := exec_unit hc
    exact ⟨_, (engineTurn_inFlight hc).trans hexec⟩

/-- Settles O50: only an engine's turn could fault, and under the invariant it answers. -/
theorem noStepFaults : Obligations.NoStepFaults := by
  intro s f hinv hfault
  obtain ⟨turn, rest, hstep, _⟩ := step_turn s
  rw [hstep] at hfault
  cases turn with
  | host => exact hostTurn_ne_fault _ f hfault
  | engine =>
    obtain ⟨t, ht⟩ := engineTurn_next_of_inv (hinv.setSchedule rest)
    cases ht.symm.trans hfault
  | hardReset => cases hfault

/-! ## A run of the engine alone -/

/-- With no turn scheduled, the step of a busy block is the engine step of its command (R117). -/
theorem step_inFlight (h : InFlight c s) (hturn : s.schedule = []) : ∃ m, step s = .next (s.afterUnit c m) := by
  obtain ⟨m, hexec, _⟩ := exec_unit h
  refine ⟨m, ?_⟩
  rw [step_of_engineHasTurn (.inr ⟨hturn, rfl⟩) h.busy, ← hturn]
  exact (engineTurn_inFlight h).trans hexec

theorem units_of_frame (h : t = { s with obuf := t.obuf, outCount := t.outCount, busy := t.busy, done := t.done }) :
    units c t = units c s := by
  rw [h]
  cases c <;> rfl

/-- After `n` steps of the engine alone, fewer than the command's units, the command is in flight with `n` units written. -/
theorem run_units (hsize : s.cfg.obufBytes ≤ 0x100000) (h : InFlight c s) (h0 : s.outCount = 0) (hturn : s.schedule = []) :
    ∀ n < units c s, ∃ t, stepsTo n s t ∧ InFlight c t ∧ t.unitIndex (unitSize c) = n ∧
      t = { s with obuf := t.obuf, outCount := t.outCount, busy := t.busy, done := t.done } := by
  intro n hn
  induction n with
  | zero => exact ⟨s, stepsTo_zero.mpr rfl, h, by rw [State.unitIndex, h0]; exact Nat.zero_div _, rfl⟩
  | succ n ih =>
    obtain ⟨t, hrun, ht, hindex, hframe⟩ := ih (by omega)
    have hunits := units_of_frame (c := c) hframe
    obtain ⟨m, hstep⟩ := step_inFlight ht (by rw [hframe]; exact hturn)
    obtain ⟨hnext, hindex'⟩ := ht.afterUnit (by rw [hframe]; exact hsize) m (by omega)
    refine ⟨_, stepsTo_last.mpr ⟨t, hrun, hstep⟩, hnext, by omega, ?_⟩
    rw [hframe]
    rfl

/-- Settles O52: the step that writes the last unit completes the command. -/
theorem commandTakesExactlyItsUnits : Obligations.CommandTakesExactlyItsUnits := by
  intro c s hinv h h0 hturn
  obtain ⟨_, _, _, _, _, _, hsize⟩ := Params.bounds hinv.params
  have hrun := run_units hsize h h0 hturn
  refine ⟨fun n hn => ?_, ?_⟩
  · obtain ⟨t, ht, hflight, rfl, _⟩ := hrun n hn
    exact ⟨t, ht, hflight.busy, hflight.count⟩
  · obtain ⟨n, hn⟩ : ∃ n, units c s = n + 1 := Nat.exists_eq_add_one.mpr (Nat.zero_lt_of_lt h.more)
    obtain ⟨t, ht, hflight, hindex, hframe⟩ := hrun n (by omega)
    obtain ⟨m, hstep⟩ := step_inFlight hflight (by rw [hframe]; exact hturn)
    have hlast : t.unitIndex (unitSize c) + 1 = units c t := by rw [hindex, units_of_frame hframe, hn]
    have hie : t.ie = s.ie := by rw [hframe]
    rw [hn]
    refine ⟨_, stepsTo_last.mpr ⟨t, ht, hstep⟩, ?_, ?_, hflight.noError, ?_⟩
    · simp [State.afterUnit, hlast]
    · simp [State.afterUnit, hlast]
    · simp [State.irq, State.afterUnit, hlast, hie]

/-! ## A run of any turns -/

/-- What the run of command `c`, accepted in `s₀`, has done by state `s`: the first OUT_COUNT bytes of the output stand in OBUF,
and nothing else of the block has changed but IE and the flags BUSY and DONE. -/
structure Progress (c : Command) (s₀ s : State) : Prop where
  frame : s = { s₀ with
    ie := s.ie, busy := s.busy, done := s.done, outCount := s.outCount, obuf := s.obuf, reply := s.reply, pos := s.pos,
    temps := s.temps, trace := s.trace, schedule := s.schedule }
  written : ∀ i, s.obufByte i =
    if s₀.dst.toNat ≤ i ∧ i < s₀.dst.toNat + s.outCount.toNat then outByte c s₀ (i - s₀.dst.toNat) else s₀.obufByte i

theorem Progress.refl (h0 : s₀.outCount = 0) : Progress c s₀ s₀ := by
  refine ⟨rfl, fun i => (if_neg ?_).symm⟩
  rw [h0]
  show ¬(_ ∧ i < s₀.dst.toNat + 0)
  omega

/-- The units, the spans and the output of a command are those of its accept throughout the run. -/
theorem Progress.units_eq (h : Progress c s₀ s) : units c s = units c s₀ := by rw [h.frame]; cases c <;> rfl

theorem Progress.dstSpan_eq (h : Progress c s₀ s) : dstSpan c s = dstSpan c s₀ := by rw [h.frame]; cases c <;> rfl

theorem Progress.outByte_eq (h : Progress c s₀ s) (j : Nat) : outByte c s j = outByte c s₀ j := by
  rw [h.frame]; cases c <;> rfl

/-- A turn that leaves OBUF and OUT_COUNT alone makes no progress and undoes none. -/
theorem Progress.outside (h : Progress c s₀ s) {ie done : Bool} {reply : Option Reply} {pos : Nat} {temps : Vector Word 8}
    {trace : List (Nat × Reply)} {schedule : List Turn} :
    Progress c s₀ { s with
      ie := ie, done := done, reply := reply, pos := pos, temps := temps, trace := trace, schedule := schedule } :=
  ⟨by rw [h.frame], h.written⟩

/-- A unit written extends the output by its bytes. -/
theorem Progress.afterUnit (h : Progress c s₀ s) (hflight : InFlight c s) (hsize : s.cfg.obufBytes ≤ 0x100000) {m : Memory}
    (hm : ∀ i, State.obufByte { s with obuf := m } i =
      if s.dst.toNat + s.unitIndex (unitSize c) * unitSize c ≤ i ∧
          i < s.dst.toNat + (s.unitIndex (unitSize c) + 1) * unitSize c
      then outByte c s (i - s.dst.toNat) else s.obufByte i) :
    Progress c s₀ (s.afterUnit c m) := by
  refine ⟨by rw [h.frame]; rfl, fun i => (hm i).trans ?_⟩
  have hdst : s.dst = s₀.dst := by rw [h.frame]
  have hcount := hflight.count
  have hnext : (s.afterUnit c m).outCount.toNat = _ := (hflight.count_next hsize).1
  rw [hnext, ← hcount, h.written, h.outByte_eq, hdst]
  have hgrow : (s.unitIndex (unitSize c) + 1) * unitSize c = s.outCount.toNat + unitSize c := by
    rw [hcount, Nat.succ_mul]
  rw [hgrow]
  by_cases hnew : s₀.dst.toNat + s.outCount.toNat ≤ i ∧ i < s₀.dst.toNat + (s.outCount.toNat + unitSize c)
  · rw [if_pos hnew, if_pos (by omega)]
  · rw [if_neg hnew]
    exact if_congr (by omega) rfl rfl

/-- Where the run of a command accepted in `s₀` can be: still running, completed, or ended by a reset. -/
inductive RunState (c : Command) (s₀ s : State) : Prop where
  | running (flight : InFlight c s) (progress : Progress c s₀ s)
  | completed (progress : Progress c s₀ s) (idle : s.busy = false) (full : s.outCount.toNat = dstSpan c s₀)
  | reset (idle : s.busy = false) (notDone : s.done = false)

/-- The engine step of a running command leaves it running, or completes it with its whole output written (R115, R116). -/
theorem Progress.engineTurn (h : Progress c s₀ s) (hflight : InFlight c s) (hsize : s.cfg.obufBytes ≤ 0x100000)
    (ht : engineTurn s = .next t) : RunState c s₀ t := by
  obtain ⟨m, hexec, _, _, hm⟩ := exec_unit hflight
  rw [engineTurn_inFlight hflight, hexec] at ht
  obtain rfl := Host.Outcome.next.inj ht
  have hprogress := h.afterUnit hflight hsize hm
  by_cases hlast : s.unitIndex (unitSize c) + 1 = units c s
  · refine .completed hprogress (by simp [State.afterUnit, hlast]) ?_
    rw [← h.dstSpan_eq, Machine.dstSpan_eq, ← hlast]
    exact (hflight.count_next hsize).1
  · exact .running (hflight.afterUnit hsize m hlast).1 hprogress

/-- A host's turn leaves a running command running, or ends it by a soft reset (R119, R226). -/
theorem Progress.hostTurn (h : Progress c s₀ s) (hflight : InFlight c s) (ht : hostTurn s = .next t) :
    RunState c s₀ t := by
  rcases hostTurn_busy hflight.busy ht with ⟨ie, done, reply, trace, temps, pos, rfl, hdone⟩ | ⟨_, _, _, _, rfl⟩
  · have hnotDone : done = false := Bool.eq_false_iff.mpr fun hup => by cases hflight.notDone.symm.trans (hdone hup)
    exact .running (hflight.congr hflight.busy hnotDone rfl rfl rfl rfl rfl rfl rfl rfl rfl) h.outside
  · exact .reset rfl rfl

/-- Whoever has the turn, a step takes a running command to one of its run states. -/
theorem Progress.step (h : Progress c s₀ s) (hflight : InFlight c s) (hsize : s.cfg.obufBytes ≤ 0x100000)
    (ht : step s = .next t) : RunState c s₀ t := by
  obtain ⟨rest, hhost | hengine | rfl⟩ := step_cases ht
  all_goals
    have hflight' : InFlight c { s with schedule := rest } :=
      hflight.congr hflight.busy hflight.notDone rfl rfl rfl rfl rfl rfl rfl rfl rfl
    have h' : Progress c s₀ { s with schedule := rest } := h.outside
  · exact h'.hostTurn hflight' hhost
  · exact h'.engineTurn hflight' hsize hengine
  · exact .reset rfl rfl

/-- Every run that stays BUSY up to its last step ends in a run state of the command accepted at its start. -/
theorem runState_of_run {n : Nat} (hsize : s₀.cfg.obufBytes ≤ 0x100000) (hflight : InFlight c s₀) (h0 : s₀.outCount = 0)
    (hbusy : busyFor n s₀) (hrun : stepsTo n s₀ s) : RunState c s₀ s := by
  induction n generalizing s with
  | zero => exact stepsTo_zero.mp hrun ▸ .running hflight (.refl h0)
  | succ n ih =>
    obtain ⟨u, hu, hstep⟩ := stepsTo_last.mp hrun
    have hub : u.busy = true := hbusy n (by omega) u hu
    cases ih (fun m hm => hbusy m (by omega)) hu with
    | running hfl hprogress => exact hprogress.step hfl (by rw [hprogress.frame]; exact hsize) hstep
    | completed _ hidle _ => cases hidle.symm.trans hub
    | reset hidle _ => cases hidle.symm.trans hub

/-- Settles O51: a run that ends idle with DONE set has completed, with all of its output written. -/
theorem resultLaw : Obligations.ResultLaw := by
  intro c n s₀ s₁ hinv hflight h0 hbusy hrun hidle hdone
  obtain ⟨_, _, _, _, _, _, hsize⟩ := Params.bounds hinv.params
  cases runState_of_run hsize hflight h0 hbusy hrun with
  | running hfl _ => cases hfl.busy.symm.trans hidle
  | reset _ hnotDone => cases hnotDone.symm.trans hdone
  | completed hprogress _ hfull =>
    have hbytes := hprogress.written
    rw [hfull] at hbytes
    refine ⟨fun j hj => ?_, fun i hi => ?_, fun i => by rw [hprogress.frame]; rfl, hfull⟩
    · rw [hbytes, if_pos (by omega), Nat.add_sub_cancel_left]
    · rw [hbytes, if_neg (by omega)]

end Sys2Proof.Machine
end

section
/-! The interlock (40_command.md R118, R119, R121, R226): what the host's accesses and turns do to a running command, and its
turns once the script has ended. -/

namespace Sys2Proof.Machine

variable {s : State}

/-! ## Register writes while BUSY -/

theorem writeReg_ctrl_reset {v : Word} (h1 : v.getLsbD 1 = true) : writeReg s .ctrl v = some s.softReset := by
  simp only [writeReg, writeCtrl, h1, if_true]

/-- A register write with no effect answers SLVERR and changes nothing (20_memory.md R66). -/
theorem exec_wr32_reg_none {r : Reg} {v : Word} (h : writeReg s r v = none) :
    exec (.wr32 (regOffset r) v) s = .next { s with reply := some .slverr } := by
  rw [exec_wr32_reg, h]
  rfl

/-- A write of STATUS clears DONE when bit 1 of its data is 1, and does nothing else (10_state.md R24). -/
theorem writeReg_status (s : State) (v : Word) :
    writeReg s .status v = some { s with done := s.done && !v.getLsbD 1 } := by
  cases h1 : v.getLsbD 1 with
  | true => rw [writeReg_status_one h1, Bool.not_true, Bool.and_false]; rfl
  | false => rw [writeReg_status_zero h1, Bool.not_false, Bool.and_true]

/-- Settles O31. -/
theorem registersWhileBusy : Obligations.RegistersWhileBusy := by
  intro s r v hb
  refine ⟨fun hlocked => ?_, ⟨_, exec_rd32_reg r s, rfl⟩, fun h0 h1 => ?_, fun h1 => ?_, ?_, fun hro => ?_⟩
  · exact exec_wr32_reg_none ((writeReg_none s r v).mpr ⟨hb, hlocked⟩)
  · exact exec_wr32_reg_some (writeReg_ctrl_ie h0 h1)
  · exact exec_wr32_reg_some (writeReg_ctrl_reset h1)
  · exact exec_wr32_reg_some (writeReg_status s v)
  · exact readOnlyRegistersIgnoreWrites s r v hro

/-! ## The host's turn while BUSY -/

/-- Settles O32: a host's turn while BUSY changes IE, DONE and the host's side only, or is a soft reset. -/
theorem hostCannotDisturbACommand : Obligations.HostCannotDisturbACommand := by
  intro s t rest hturn hb hstep
  rw [step_of_hostHasTurn (.inl hturn)] at hstep
  rcases hostTurn_busy (s := { s with schedule := rest }) hb hstep with ⟨_, _, _, _, _, _, rfl, _⟩ | ⟨_, _, _, _, rfl⟩
  · exact ⟨fun _ => rfl, fun _ => rfl, .inl ⟨hb, rfl, rfl, rfl, rfl, rfl, rfl, rfl, rfl, rfl⟩⟩
  · exact ⟨fun _ => rfl, fun _ => rfl, .inr ⟨rfl, rfl, rfl, rfl, rfl⟩⟩

/-! ## After the script's end -/

/-- At `halt` and past the last line a host's turn does nothing. -/
theorem hostTurn_ended (h : s.runEnded = true ∨ s.script[s.pos]? = none) : hostTurn s = .next s := by
  rcases h with hhalt | hpast
  · have hline : s.script[s.pos]? = some .halt := by simpa [State.runEnded] using hhalt
    simp only [hostTurn, hline]
  · simp only [hostTurn, hpast]

/-- Settles O58. -/
theorem endedRunStays : Obligations.EndedRunStays := by
  intro s rest hturn hended
  have hstep : step s = .next { s with schedule := rest } := by
    rw [step_of_hostHasTurn hturn]
    exact hostTurn_ended (s := { s with schedule := rest }) hended
  refine ⟨hstep, fun hempty => ?_⟩
  obtain rfl : rest = [] := by
    rcases hturn with hhost | ⟨_, hrest, _⟩
    · cases hempty.symm.trans hhost
    · exact hrest
  rw [hstep, ← hempty]

end Sys2Proof.Machine
end

section
/-! The accept (40_command.md R110, R111, R113, R114; 43_strip.md R173): which check decides it, what it leaves, and what it
depends on. -/

namespace Sys2Proof.Machine

variable {c : Command} {s s' : State}

/-! ## The checks of a command -/

/-- `check()` of a command that OP.CODE selects (R111). -/
def checks : Command → State → State × Option CmdError
  | .pack => packCheck
  | .premul => premulCheck
  | .strip => stripCheck

theorem accept_of_code (h : decodeCode s.opCode = .ok c) : s.accept = startCommand (checks c) (units c) s := by
  cases c <;> simp only [State.accept, h] <;> rfl

/-- Whether the checks capture HDR: a STRIP that passes SHORT and RANGE (R173). -/
def captures (c : Command) (s : State) : Bool :=
  decide (c = .strip ∧ 6 ≤ s.len.toNat) && !s.outOfRange (srcSpan c s) (dstSpan c s)

theorem captures_iff : captures c s = true ↔
    (c = .strip ∧ 6 ≤ s.len.toNat) ∧
      ¬(s.cfg.ibufBytes < s.src.toNat + srcSpan c s ∨ s.cfg.obufBytes < s.dst.toNat + dstSpan c s) := by
  rw [captures, Bool.and_eq_true, decide_eq_true_eq, Bool.not_eq_true', ← Bool.not_eq_true, outOfRange_iff]

/-- The checks change nothing but HDR. -/
theorem checks_fst (c : Command) (s : State) : (checks c s).1 = if captures c s then s.captureHdr else s := by
  simp only [captures_iff]
  cases c with
  | pack => rcases packCheck_cases s with ⟨_, e⟩ | ⟨_, _, e⟩ | ⟨_, _, e⟩ <;> simp [checks, e]
  | premul => rcases premulCheck_cases s with ⟨_, e⟩ | ⟨_, _, e⟩ | ⟨_, _, e⟩ <;> simp [checks, e]
  | strip =>
    rcases stripCheck_cases s with ⟨hshort, e⟩ | ⟨_, hrange, e⟩ | ⟨hlen, hrange, hcaptured⟩
    · rw [checks, e, if_neg fun h => by omega]
    · rw [checks, e, if_neg fun h => h.2 hrange]
    · rw [if_pos ⟨⟨rfl, hlen⟩, hrange⟩]
      rcases hcaptured with ⟨_, e⟩ | ⟨_, _, e⟩ | ⟨_, _, e⟩ <;> rw [checks, e]

/-! The error of each command's checks, in the order of R111. -/

theorem packCheck_snd (s : State) : (packCheck s).2 =
    if s.dst.toNat % 4 ≠ 0 then some .align
    else if s.outOfRange (packSrcSpan s) (packDstSpan s) then some .range
    else none := by
  unfold packCheck
  split_ifs <;> rfl

theorem premulCheck_snd (s : State) : (premulCheck s).2 =
    if s.src.toNat % 4 ≠ 0 ∨ s.dst.toNat % 4 ≠ 0 then some .align
    else if s.outOfRange (premulSrcSpan s) (premulDstSpan s) then some .range
    else none := by
  unfold premulCheck
  split_ifs <;> rfl

theorem stripCheck_snd (s : State) : (stripCheck s).2 =
    if s.len.toNat < 6 then some .short
    else if s.outOfRange (stripSrcSpan s) (stripDstSpan s) then some .range
    else if s.ibufByte s.src.toNat &&& 0x0F#8 ≠ 8#8 then some .method
    else if s.ibufByte (s.src.toNat + 1) &&& 0x20#8 ≠ 0#8 then some .fdict
    else none := by
  unfold stripCheck
  split_ifs <;> rfl

/-- What a command's checks depend on: its operands, the parameters and the bytes of IBUF. -/
structure SameOperands (s s' : State) : Prop where
  cfg : s'.cfg = s.cfg
  src : s'.src = s.src
  dst : s'.dst = s.dst
  len : s'.len = s.len
  width : s'.width = s.width
  height : s'.height = s.height
  input : ∀ i, s'.ibufByte i = s.ibufByte i

theorem SameOperands.units_eq (h : SameOperands s s') (c : Command) : units c s' = units c s := by
  cases c <;>
    simp only [units, packUnits, premulUnits, stripUnits, State.pixelCount, State.bodyLen, h.len, h.width, h.height]

theorem SameOperands.srcSpan_eq (h : SameOperands s s') (c : Command) : srcSpan c s' = srcSpan c s := by
  cases c <;> simp only [srcSpan, packSrcSpan, premulSrcSpan, stripSrcSpan, State.pixelCount, h.len, h.width, h.height]

theorem SameOperands.outOfRange_eq (h : SameOperands s s') (c : Command) :
    s'.outOfRange (srcSpan c s') (dstSpan c s') = s.outOfRange (srcSpan c s) (dstSpan c s) := by
  unfold State.outOfRange
  rw [h.cfg, h.src, h.dst, h.srcSpan_eq, dstSpan_eq, dstSpan_eq, h.units_eq]

theorem SameOperands.captures_eq (h : SameOperands s s') (c : Command) : captures c s' = captures c s := by
  rw [captures, captures, h.len, h.outOfRange_eq]

/-- The same operands fail the same check. -/
theorem SameOperands.checks_snd (h : SameOperands s s') (c : Command) : (checks c s').2 = (checks c s).2 := by
  have hrange := h.outOfRange_eq c
  cases c <;> simp only [srcSpan, dstSpan] at hrange <;> unfold checks
  · rw [packCheck_snd, packCheck_snd, h.dst, hrange]
  · rw [premulCheck_snd, premulCheck_snd, h.src, h.dst, hrange]
  · rw [stripCheck_snd, stripCheck_snd, h.len, hrange, h.src, h.input, h.input]

theorem SameOperands.clearOutcome (s : State) : SameOperands s s.clearOutcome :=
  ⟨rfl, rfl, rfl, rfl, rfl, rfl, fun _ => rfl⟩

/-- The checks of an accept see DONE, ERR, ERRCODE and OUT_COUNT cleared, which they do not look at. -/
theorem checks_clearOutcome (c : Command) (s : State) :
    checks c s.clearOutcome = ((checks c s).1.clearOutcome, (checks c s).2) := by
  have hsame := SameOperands.clearOutcome s
  refine Prod.ext ?_ (hsame.checks_snd c)
  simp only [checks_fst, hsame.captures_eq]
  split_ifs <;> rfl

/-! ## The accept as a whole -/

/-- ERRCODE after a check (R194): the code of its error, 0 when it has none. -/
def errorCode : Option CmdError → BitVec 4
  | none => 0
  | some e => e.code

theorem units_checks_fst (c : Command) (s : State) : units c (checks c s).1.clearOutcome = units c s := by
  rw [checks_fst]
  split_ifs <;> cases c <;> rfl

/-- Everything an accept of a command leaves (R110, R113, R114): the outcome of its checks in STATUS, OUT_COUNT 0, and HDR as
the checks left it. -/
theorem accept_eq (h : decodeCode s.opCode = .ok c) :
    s.accept = { (checks c s).1 with
      busy := decide ((checks c s).2 = none ∧ units c s ≠ 0), done := !decide ((checks c s).2 = none ∧ units c s ≠ 0)
      err := (checks c s).2.isSome, errCode := errorCode (checks c s).2, outCount := 0 } := by
  have hcheck := checks_clearOutcome c s
  rw [accept_of_code h]
  cases he : (checks c s).2 with
  | some e =>
    rw [startCommand_fail _ (he ▸ hcheck)]
    rfl
  | none =>
    rw [startCommand_ok _ (he ▸ hcheck), units_checks_fst]
    by_cases hu : units c s = 0 <;> simp [hu] <;> rfl

theorem accept_reserved {e : DecodeError} (h : decodeCode s.opCode = .error e) :
    s.accept = s.clearOutcome.fail .badop := by
  simp only [State.accept, h]

/-- ERR is 1 exactly when ERRCODE is not 0 (R24). -/
theorem accept_err (s : State) : s.accept.err = decide (s.accept.errCode ≠ 0) := by
  rcases accept_cases s with ⟨e, heq, _⟩ | ⟨e, heq, _⟩ | ⟨c, w, _, _, hw, heq⟩
  · rw [heq]; exact (decide_eq_true e.code_known.2).symm
  · rw [heq]; exact (decide_eq_true e.code_known.2).symm
  · rw [heq]
    rcases hw with ⟨_, rfl⟩ | ⟨_, rfl⟩ <;> split_ifs <;> rfl

/-! ## The checks in order -/

/-- A reserved OP fails with BADOP and captures no header. -/
theorem accept_badop (h : s.opCode ≠ 1 ∧ s.opCode ≠ 2 ∧ s.opCode ≠ 3) :
    s.accept.errCode = 1 ∧ s.accept.hdrCmf = s.hdrCmf ∧ s.accept.hdrFlg = s.hdrFlg := by
  cases hcode : decodeCode s.opCode with
  | error e => rw [accept_reserved hcode]; exact ⟨rfl, rfl, rfl⟩
  | ok c =>
    have hop := (decodeCode_ok_iff _ _).mp hcode
    cases c with
    | pack => exact absurd hop h.1
    | premul => exact absurd hop h.2.1
    | strip => exact absurd hop h.2.2

theorem accept_errCode (h : decodeCode s.opCode = .ok c) : s.accept.errCode = errorCode (checks c s).2 := by
  rw [accept_eq h]

theorem accept_hdr (h : decodeCode s.opCode = .ok c) :
    s.accept.hdrCmf = (if captures c s then s.ibufByte s.src.toNat else s.hdrCmf) ∧
      s.accept.hdrFlg = if captures c s then s.ibufByte (s.src.toNat + 1) else s.hdrFlg := by
  rw [accept_eq h, checks_fst]
  split_ifs <;> exact ⟨rfl, rfl⟩

/-- PACK: ALIGN, then RANGE (R136). -/
theorem accept_pack (h : s.opCode = 1) :
    (s.accept.hdrCmf = s.hdrCmf ∧ s.accept.hdrFlg = s.hdrFlg) ∧
      if s.dst.toNat % 4 ≠ 0 then s.accept.errCode = 2
      else if s.src.toNat + s.width.toNat * s.height.toNat > s.cfg.ibufBytes ∨
          s.dst.toNat + s.height.toNat * ((s.width.toNat + 31) / 32 * 4) > s.cfg.obufBytes then s.accept.errCode = 4
      else s.accept.errCode = 0 := by
  have hcode : decodeCode s.opCode = .ok .pack := (decodeCode_ok_iff _ _).mpr h
  refine ⟨accept_hdr hcode, ?_⟩
  rw [accept_errCode hcode, checks, packCheck_snd]
  simp only [outOfRange_iff, packSrcSpan, packDstSpan, State.pixelCount, rowBytes_eq]
  split_ifs <;> rfl

/-- PREMUL: ALIGN, then RANGE (R158). -/
theorem accept_premul (h : s.opCode = 2) :
    (s.accept.hdrCmf = s.hdrCmf ∧ s.accept.hdrFlg = s.hdrFlg) ∧
      if s.src.toNat % 4 ≠ 0 ∨ s.dst.toNat % 4 ≠ 0 then s.accept.errCode = 2
      else if s.src.toNat + 4 * (s.width.toNat * s.height.toNat) > s.cfg.ibufBytes ∨
          s.dst.toNat + 4 * (s.width.toNat * s.height.toNat) > s.cfg.obufBytes then s.accept.errCode = 4
      else s.accept.errCode = 0 := by
  have hcode : decodeCode s.opCode = .ok .premul := (decodeCode_ok_iff _ _).mpr h
  refine ⟨accept_hdr hcode, ?_⟩
  rw [accept_errCode hcode, checks, premulCheck_snd]
  simp only [outOfRange_iff, premulSrcSpan, premulDstSpan, State.pixelCount]
  split_ifs <;> rfl

/-- STRIP: SHORT, RANGE, then METHOD and FDICT with the header captured (R172, R173). -/
theorem accept_strip (h : s.opCode = 3) :
    if s.len.toNat < 6 then s.accept.errCode = 3 ∧ s.accept.hdrCmf = s.hdrCmf ∧ s.accept.hdrFlg = s.hdrFlg
    else if s.src.toNat + s.len.toNat > s.cfg.ibufBytes ∨ s.dst.toNat + (s.len.toNat - 6) > s.cfg.obufBytes then
      s.accept.errCode = 4 ∧ s.accept.hdrCmf = s.hdrCmf ∧ s.accept.hdrFlg = s.hdrFlg
    else if (s.ibufByte s.src.toNat).toNat % 16 ≠ 8 then
      s.accept.errCode = 5 ∧ s.accept.hdrCmf = s.ibufByte s.src.toNat ∧ s.accept.hdrFlg = s.ibufByte (s.src.toNat + 1)
    else if (s.ibufByte (s.src.toNat + 1)).getLsbD 5 = true then
      s.accept.errCode = 6 ∧ s.accept.hdrCmf = s.ibufByte s.src.toNat ∧ s.accept.hdrFlg = s.ibufByte (s.src.toNat + 1)
    else
      s.accept.errCode = 0 ∧ s.accept.hdrCmf = s.ibufByte s.src.toNat ∧
        s.accept.hdrFlg = s.ibufByte (s.src.toNat + 1) := by
  have hcode : decodeCode s.opCode = .ok .strip := (decodeCode_ok_iff _ _).mpr h
  have hcases := stripCheck_cases s
  simp only [stripSrcSpan, stripDstSpan, State.bodyLen] at hcases
  rw [accept_eq hcode]
  simp only [checks]
  rcases hcases with ⟨hlen, e⟩ | ⟨hlen, hrange, e⟩ | ⟨hlen, hrange, hcaptured⟩
  · rw [if_pos hlen, e]
    exact ⟨rfl, rfl, rfl⟩
  · rw [if_neg (by omega), if_pos hrange, e]
    exact ⟨rfl, rfl, rfl⟩
  · rw [if_neg (by omega), if_neg hrange]
    rcases hcaptured with ⟨hmethod, e⟩ | ⟨hmethod, hfdict, e⟩ | ⟨hmethod, hfdict, e⟩
    · rw [if_pos hmethod, e]
      exact ⟨rfl, rfl, rfl⟩
    · rw [if_neg (by omega), if_pos hfdict, e]
      exact ⟨rfl, rfl, rfl⟩
    · rw [if_neg (by omega), if_neg (Bool.eq_false_iff.mp hfdict), e]
      exact ⟨rfl, rfl, rfl⟩

/-- Settles O33: the accept of the block that has the IE of the same write, by the OP it finds. -/
theorem acceptRunsTheChecksInOrder : Obligations.AcceptRunsTheChecksInOrder := by
  intro s v hb hv
  let u : State := { s with ie := v.getLsbD 8 }
  refine ⟨_, exec_start s v hb hv, rfl, accept_err u, accept_badop (s := u), accept_pack (s := u), accept_premul (s := u),
    accept_strip (s := u), ?_, rfl, rfl, rfl, rfl, rfl⟩
  rw [← rowBytes_eq]
  rfl

/-! ## A command that fails, and one that passes -/

/-- What a failed accept leaves: HDR is captured by METHOD and FDICT, the two checks that come after the capture. -/
theorem accept_failed (h : s.accept.err = true) :
    s.accept = { s with
      busy := false, done := true, err := true, errCode := s.accept.errCode, outCount := 0, hdrCmf := s.accept.hdrCmf,
      hdrFlg := s.accept.hdrFlg } ∧
    (1 ≤ s.accept.errCode.toNat ∧ s.accept.errCode.toNat ≤ 6) ∧
    (s.accept.errCode ≠ 5 ∧ s.accept.errCode ≠ 6 → s.accept.hdrCmf = s.hdrCmf ∧ s.accept.hdrFlg = s.hdrFlg) ∧
    (s.accept.errCode = 5 ∨ s.accept.errCode = 6 →
      s.accept.hdrCmf = s.ibufByte s.src.toNat ∧ s.accept.hdrFlg = s.ibufByte (s.src.toNat + 1)) := by
  have hrange (e : CmdError) : 1 ≤ e.code.toNat ∧ e.code.toNat ≤ 6 := by cases e <;> decide
  have hlate (e : CmdError) : e.code = 5 ∨ e.code = 6 ↔ e = .method ∨ e = .fdict := by cases e <;> decide
  rcases accept_cases s with ⟨e, heq, hm, hf⟩ | ⟨e, heq, he, _⟩ | ⟨c, w, _, _, hw, heq⟩
  · rw [heq]
    refine ⟨rfl, hrange e, fun _ => ⟨rfl, rfl⟩, fun hcode => ?_⟩
    rcases (hlate e).mp hcode with rfl | rfl
    · exact absurd rfl hm
    · exact absurd rfl hf
  · rw [heq]
    refine ⟨rfl, hrange e, fun hcode => ?_, fun _ => ⟨rfl, rfl⟩⟩
    exact absurd ((hlate e).mpr he) (not_or.mpr hcode)
  · rw [heq] at h
    rcases hw with ⟨_, rfl⟩ | ⟨_, rfl⟩ <;> split_ifs at h <;> cases h

/-- Settles O34. -/
theorem failedCommandHasNoOutput : Obligations.FailedCommandHasNoOutput := by
  intro s t v hb hv hexec herr
  rw [exec_start s v hb hv] at hexec
  obtain rfl := Host.Outcome.next.inj hexec
  obtain ⟨heq, ⟨hlow, hhigh⟩, hkept, htaken⟩ := accept_failed herr
  refine ⟨(congrArg (State.answer · .done) heq).trans ?_, hlow, hhigh, hkept, htaken⟩
  rw [hb]
  rfl

/-- What an accept without error leaves: the command running, or completed when it has no units. -/
theorem accept_passed (hcode : decodeCode s.opCode = .ok c) (h : s.accept.err = false) :
    CommandFits c s ∧ s.accept = { s with
      busy := decide (0 < units c s), done := decide (units c s = 0), err := false, errCode := 0, outCount := 0,
      hdrCmf := s.accept.hdrCmf, hdrFlg := s.accept.hdrFlg } := by
  rcases accept_cases s with ⟨e, heq, _⟩ | ⟨e, heq, _⟩ | ⟨c', w, hcode', hfits, hw, heq⟩
  · rw [heq] at h; cases h
  · rw [heq] at h; cases h
  · obtain rfl : c' = c := Except.ok.inj (hcode'.symm.trans hcode)
    refine ⟨hfits, ?_⟩
    rw [heq]
    by_cases hu : units c' s = 0
    · rw [if_pos hu, hu]
      rcases hw with ⟨_, rfl⟩ | ⟨_, rfl⟩ <;> rfl
    · rw [if_neg hu, decide_eq_true (Nat.pos_of_ne_zero hu), decide_eq_false hu]
      rcases hw with ⟨_, rfl⟩ | ⟨_, rfl⟩ <;> rfl

/-- The commands with nothing to write: no pixels, or a container without a body. -/
theorem units_eq_zero_iff (h : CommandFits c s) : units c s = 0 ↔ match c with
    | .pack => s.width.toNat = 0 ∨ s.height.toNat = 0
    | .premul => s.width.toNat = 0 ∨ s.height.toNat = 0
    | .strip => s.len.toNat = 6 := by
  cases c with
  | pack =>
    have hrow : rowBytes s.width = 0 ↔ s.width.toNat = 0 := by rw [rowBytes_eq]; omega
    simp only [units, packUnits, Nat.mul_eq_zero, hrow, or_comm]
  | premul => simp only [units, premulUnits, State.pixelCount, Nat.mul_eq_zero]
  | strip =>
    have hlen : 6 ≤ s.len.toNat := h.shape
    simp only [units, stripUnits, State.bodyLen]
    omega

/-- Settles O35. -/
theorem passedCommandStartsOrCompletes : Obligations.PassedCommandStartsOrCompletes := by
  intro s t v c hb hv hcode hexec herr
  rw [exec_start s v hb hv] at hexec
  obtain rfl := Host.Outcome.next.inj hexec
  obtain ⟨hfits, heq⟩ := accept_passed (s := { s with ie := v.getLsbD 8 }) hcode herr
  cases c <;> exact ⟨congrArg (State.answer · .done) heq, units_eq_zero_iff hfits⟩

/-! ## What the accept depends on -/

theorem accept_ie (s : State) : s.accept.ie = s.ie := by
  rcases accept_cases s with ⟨e, heq, _⟩ | ⟨e, heq, _⟩ | ⟨c, w, _, _, hw, heq⟩
  · rw [heq]; rfl
  · rw [heq]; rfl
  · rw [heq]
    rcases hw with ⟨_, rfl⟩ | ⟨_, rfl⟩ <;> split_ifs <;> rfl

/-- Two blocks with the same OP and operands report the same outcome of an accept. -/
theorem SameOperands.accept_outcome (h : SameOperands s s') (hop : s'.opCode = s.opCode) :
    s'.accept.busy = s.accept.busy ∧ s'.accept.done = s.accept.done ∧ s'.accept.err = s.accept.err ∧
      s'.accept.errCode = s.accept.errCode ∧ s'.accept.outCount = s.accept.outCount := by
  cases hcode : decodeCode s.opCode with
  | error e =>
    rw [accept_reserved hcode, accept_reserved (hop ▸ hcode)]
    exact ⟨rfl, rfl, rfl, rfl, rfl⟩
  | ok c =>
    rw [accept_eq hcode, accept_eq (hop ▸ hcode), h.checks_snd, h.units_eq]
    exact ⟨rfl, rfl, rfl, rfl, rfl⟩

/-- Settles O36: the two blocks get the same IE in the write and agree on all that the accept depends on. -/
theorem acceptIgnoresThePast : Obligations.AcceptIgnoresThePast := by
  intro s s' v hb hb' hv hcfg hop hsrc hdst hlen hwidth hheight hinput
  let u : State := { s with ie := v.getLsbD 8 }
  let u' : State := { s' with ie := v.getLsbD 8 }
  have hsame : SameOperands u u' := ⟨hcfg, hsrc, hdst, hlen, hwidth, hheight, hinput⟩
  obtain ⟨hbusy, hdone, herr, hcode, hcount⟩ := hsame.accept_outcome hop
  refine ⟨_, _, exec_start s v hb hv, exec_start s' v hb' hv, hbusy, hdone, herr, hcode, hcount, ?_⟩
  show (u'.accept.done && u'.accept.ie) = (u.accept.done && u.accept.ie)
  rw [hdone, accept_ie, accept_ie]

end Sys2Proof.Machine
end

section
/-! The engine's reach (40_command.md R120): the output of a command depends on its source span of IBUF only, and an engine step
writes its destination span of OBUF only. -/

namespace Sys2Proof.Machine

variable {c : Command} {s : State} {m n : Memory}

/-- `m` holds the bytes of IBUF that command `c` of block `s` may read. -/
def SameSource (c : Command) (s : State) (m : Memory) : Prop :=
  ∀ i, s.src.toNat ≤ i → i < s.src.toNat + srcSpan c s → State.ibufByte { s with ibuf := m } i = s.ibufByte i

/-- PACK looks at real pixels only: a padding column reads nothing. -/
theorem SameSource.truthy_eq (h : SameSource .pack s m) {y : Nat} (hy : y < s.height.toNat) (xb b : Nat) :
    truthy { s with ibuf := m, obuf := n } y xb b = truthy s y xb b := by
  refine decide_eq_decide.mpr (and_congr_right fun hx => ?_)
  have hpixel : y * s.width.toNat + (8 * xb + b) < srcSpan .pack s := pixel_inside hy hx
  have hbyte := h (pixelIndex s (8 * xb + b) y) (by unfold pixelIndex; omega) (by unfold pixelIndex; omega)
  exact not_congr (Eq.congr_left hbyte)

/-- The whole-operation function reads the source span only. -/
theorem SameSource.outByte_eq (h : SameSource c s m) {j : Nat} (hj : j < dstSpan c s) :
    outByte c { s with ibuf := m, obuf := n } j = outByte c s j := by
  cases c with
  | pack =>
    have hj' : j < s.height.toNat * rowBytes s.width := hj
    have hy : j / rowBytes s.width < s.height.toNat := Nat.div_lt_of_lt_mul (by rwa [Nat.mul_comm])
    show packOut _ j = packOut s j
    rw [packOut_eq, packOut_eq]
    simp only [h.truthy_eq hy]
  | premul =>
    have hj' : j < 4 * s.pixelCount := hj
    have hspan : srcSpan .premul s = 4 * s.pixelCount := rfl
    have hbyte (lane : Nat) (hl : lane < 4) :
        State.ibufByte { s with ibuf := m, obuf := n } (s.src.toNat + 4 * (j / 4) + lane) =
          s.ibufByte (s.src.toNat + 4 * (j / 4) + lane) := h _ (by omega) (by omega)
    show premulOut _ j = premulOut s j
    cases hlane : j % 4 with
    | zero => simp only [premulOut, hlane, hbyte 3 (by decide)]
    | succ lane => simp only [premulOut, hlane, hbyte 3 (by decide), hbyte lane (by omega)]
  | strip =>
    have hj' : j < s.len.toNat - 6 := hj
    have hspan : srcSpan .strip s = s.len.toNat := rfl
    exact h (s.src.toNat + 2 + j) (by omega) (by omega)

/-- The unit that a running command writes next lies in its destination span. -/
theorem InFlight.unit_inside (h : InFlight c s) : (s.unitIndex (unitSize c) + 1) * unitSize c ≤ dstSpan c s :=
  dstSpan_eq c s ▸ Nat.mul_le_mul_right _ h.more

/-- Settles O45: both engine steps write the same unit, which lies in the destination span. -/
theorem engineStaysInItsSpans : Obligations.EngineStaysInItsSpans := by
  intro c s m n hflight hsame
  obtain ⟨o, hexec, _, _, ho⟩ := exec_unit hflight
  obtain ⟨o', hexec', _, _, ho'⟩ := exec_unit (hflight.buffers m n)
  refine ⟨_, _, hexec, hexec', rfl, by cases c <;> rfl, fun i => ?_⟩
  by_cases hi : s.dst.toNat + s.unitIndex (unitSize c) * unitSize c ≤ i ∧
      i < s.dst.toNat + (s.unitIndex (unitSize c) + 1) * unitSize c
  · have hlast := hflight.unit_inside
    have hinside : i - s.dst.toNat < dstSpan c s := by omega
    have hunit : State.obufByte { s with obuf := o } i = outByte c s (i - s.dst.toNat) := (ho i).trans (if_pos hi)
    have hunit' := (ho' i).trans (if_pos hi)
    exact .inr ⟨by omega, by omega, hunit'.trans ((SameSource.outByte_eq hsame hinside).trans hunit.symm)⟩
  · exact .inl ⟨(ho i).trans (if_neg hi), (ho' i).trans (if_neg hi)⟩

end Sys2Proof.Machine
end

section
/-! PACK's packed rows and the whole-operation functions (41_pack.md R131, R133, R134, R138; 42_premul.md R155; 43_strip.md
R175): the pixel that each bit of an output byte or of an aligned output word shows, and the bytes that PREMUL and STRIP write. -/

namespace Sys2Proof.Machine

/-! ## The padded width -/

/-- Clearing bits 4:0 rounds down to a multiple of 32 (00_scope.md R11). -/
theorem clear_low_five_bits_toNat (x : Word) : (x &&& ~~~31#32).toNat = x.toNat / 32 * 32 := by
  have hshift : x &&& ~~~31#32 = (x >>> 5) <<< 5 := by
    ext i hi
    interval_cases i <;> simp
  have hx := x.isLt
  rw [hshift, BitVec.toNat_shiftLeft, BitVec.toNat_ushiftRight, Nat.shiftRight_eq_div_pow, Nat.shiftLeft_eq]
  omega

theorem paddedWidth_eq_mask (w : BitVec 16) :
    BitVec.ofNat 32 (paddedWidth w) = (w.setWidth 32 + 31#32) &&& ~~~31#32 := by
  have hw := w.isLt
  apply BitVec.eq_of_toNat_eq
  have hsum : (w.setWidth 32 + 31#32).toNat = w.toNat + 31 := by
    rw [BitVec.toNat_add, BitVec.toNat_setWidth, BitVec.toNat_ofNat]
    omega
  rw [clear_low_five_bits_toNat, hsum, BitVec.toNat_ofNat, paddedWidth]
  omega

/-- Settles O41: the padded width is a quotient by 32 times 32, so all but the mask form is arithmetic. -/
theorem paddedWidthAndRowBytes : Obligations.PaddedWidthAndRowBytes := by
  intro w
  have hw := w.isLt
  have hpad : paddedWidth w = (w.toNat + 31) / 32 * 32 := rfl
  have hrow := rowBytes_eq w
  refine ⟨paddedWidth_eq_mask w, by omega, by omega, by omega, by omega, by omega, rfl, by omega, by omega, ?_⟩
  rintro s rfl
  rw [readReg_toNat, hrow]

/-! ## The bits of PACK's output -/

theorem truthy_iff (s : State) (y xb b : Nat) : truthy s y xb b = true ↔
    8 * xb + b < s.width.toNat ∧ s.ibufByte (s.src.toNat + y * s.width.toNat + (8 * xb + b)) ≠ 0 :=
  decide_eq_true_iff

/-- Bit by bit, byte `xb` of row `y` of PACK's output is the truthiness of the pixels of that row (R134). -/
theorem packOut_bit_of_row (s : State) (y : Nat) {xb b : Nat} (hxb : xb < rowBytes s.width) (hb : b < 8) :
    (packOut s (y * rowBytes s.width + xb)).getLsbD (7 - b) = truthy s y xb b := by
  have hdiv : (y * rowBytes s.width + xb) / rowBytes s.width = y := by
    rw [Nat.add_comm, Nat.add_mul_div_right _ _ (by omega), Nat.div_eq_of_lt hxb, Nat.zero_add]
  rw [packOut_bit s _ b hb, hdiv, Nat.mul_add_mod_of_lt hxb]

/-- Settles O38: unit `k` is byte `k` of the whole output, whose bits are `packOut_bit`. -/
theorem packStepWritesOneByte : Obligations.PackStepWritesOneByte := by
  intro s hflight W RB k
  obtain ⟨m, hexec, _, _, hbytes⟩ := exec_unit hflight
  have hindex : s.unitIndex (unitSize .pack) = k := Nat.div_one _
  have hrow : rowBytes s.width = RB := rowBytes_eq s.width
  have hunits : units .pack s = s.height.toNat * RB := congrArg (s.height.toNat * ·) hrow
  have hsize : unitSize .pack = 1 := rfl
  rw [hindex, hsize, Nat.mul_one, Nat.mul_one] at hbytes
  refine ⟨_, hexec, fun b hb => ?_, fun i hi => (hbytes i).trans (if_neg (by omega)), ?_⟩
  · have hbyte : (s.afterUnit .pack m).obufByte (s.dst.toNat + k) = packOut s k := by
      refine (hbytes _).trans ?_
      rw [if_pos (by omega), Nat.add_sub_cancel_left]
      rfl
    rw [hbyte, packOut_bit s k b hb, truthy_iff, hrow, Nat.mul_comm 8]
  · rw [State.afterUnit, hindex, hunits]
    rfl

/-! ## The aligned word of a packed row -/

/-- Bit `31 - n` of a word is bit `7 - n mod 8` of its byte `n div 8`, the bytes taken most significant first (R64). -/
theorem wordOf_bit (f : Nat → Byte) {n : Nat} (hn : n < 32) :
    (wordOf (f 0) (f 1) (f 2) (f 3)).getLsbD (31 - n) = (f (n / 8)).getLsbD (7 - n % 8) := by
  rw [wordOf, BitVec.getLsbD_append, BitVec.getLsbD_append, BitVec.getLsbD_append]
  split_ifs <;> refine congrArg₂ BitVec.getLsbD (congrArg f ?_) ?_ <;> omega

/-- Settles O43: column `n` of word `j` is bit `7 - n mod 8` of byte `4 * j + n div 8` of the row. -/
theorem packedRowWordView : Obligations.PackedRowWordView := by
  intro s t y j n hout hy hj hn
  have hxb : 4 * j + n / 8 < rowBytes s.width := by omega
  have hinside : y * rowBytes s.width + (4 * j + n / 8) < packDstSpan s :=
    (pixel_inside hy hxb).trans_eq (Nat.mul_comm _ _)
  have hcolumn : 8 * (4 * j + n / 8) + n % 8 = 32 * j + n := by omega
  have hword : (t.obufWord (s.dst.toNat + y * rowBytes s.width + 4 * j)).getLsbD (31 - n) =
      (t.obufByte (s.dst.toNat + y * rowBytes s.width + 4 * j + n / 8)).getLsbD (7 - n % 8) :=
    wordOf_bit (fun i => t.obufByte (s.dst.toNat + y * rowBytes s.width + 4 * j + i)) hn
  rw [hword, Nat.add_assoc, Nat.add_assoc, hout _ hinside, packOut_bit_of_row s y hxb (Nat.mod_lt _ (by decide)),
    truthy_iff, hcolumn]

/-! ## The whole-operation functions -/

/-- Byte 0 of output word `i` is the pixel's alpha, unscaled (R155). -/
theorem premulOut_alpha (s : State) (i : Nat) : premulOut s (4 * i) = s.ibufByte (s.src.toNat + 4 * i + 3) := by
  simp [premulOut]

/-- Bytes 1, 2, 3 of output word `i` are the pixel's red, green, blue, scaled by its alpha (R155). -/
theorem premulOut_component (s : State) (i : Nat) {lane : Nat} (h : lane < 3) : premulOut s (4 * i + 1 + lane) =
    scale (s.ibufByte (s.src.toNat + 4 * i + lane)) (s.ibufByte (s.src.toNat + 4 * i + 3)) := by
  have hpixel : (4 * i + 1 + lane) / 4 = i := by omega
  have hlane : (4 * i + 1 + lane) % 4 = lane + 1 := by omega
  simp only [premulOut, hpixel, hlane]

/-- Settles O44: a bit of PACK is `packOut_bit_of_row`, a lane of PREMUL is a scaled component, and STRIP is a copy. -/
theorem wholeOperationFunctions : Obligations.WholeOperationFunctions := fun s =>
  ⟨fun y xb b hxb hb => (Bool.eq_iff_iff.mp (packOut_bit_of_row s y hxb hb)).trans (truthy_iff s y xb b),
    fun i => ⟨premulOut_alpha s i, fun _ hlane =>
      (congrArg BitVec.toNat (premulOut_component s i hlane)).trans (scale_toNat _ _)⟩,
    fun _ => rfl⟩

end Sys2Proof.Machine
end

section
/-! PREMUL's scaling function and its engine step (42_premul.md R153, R154, R156, R157): the numeric laws of `scale`, and the word
that one step writes. -/

namespace Sys2Proof.Machine

/-! ## The numeric laws of `scale` -/

/-- Law 1: the floor of the exact quotient. -/
theorem scale_bounds (c a : Byte) : 255 * (scale c a).toNat ≤ c.toNat * a.toNat ∧
    c.toNat * a.toNat < 255 * ((scale c a).toNat + 1) := by
  rw [scale_toNat]
  exact ⟨Nat.mul_div_le _ _, Nat.lt_mul_div_succ _ (by decide)⟩

/-- Law 5. -/
theorem scale_comm (c a : Byte) : scale c a = scale a c := by
  rw [scale, scale, Nat.mul_comm]

/-- Law 6. -/
theorem scale_mono {c₁ c₂ : Byte} (a : Byte) (h : c₁.toNat ≤ c₂.toNat) : (scale c₁ a).toNat ≤ (scale c₂ a).toNat := by
  rw [scale_toNat, scale_toNat]
  exact Nat.div_le_div_right (Nat.mul_le_mul_right _ h)

/-- Law 3: a transparent pixel has no colour. -/
theorem scale_zero (c : Byte) : scale c 0 = 0 := by simp [scale]

/-- Law 4: an opaque pixel keeps its colour. -/
theorem scale_opaque (c : Byte) : scale c 255 = c :=
  BitVec.eq_of_toNat_eq ((scale_toNat c 255).trans (Nat.mul_div_cancel _ (by decide)))

/-- Law 2, for the component: monotone in alpha, which is at most 255, where `scale` is the identity. -/
theorem scale_le_component (c a : Byte) : (scale c a).toNat ≤ c.toNat := by
  have hopaque : (scale a c).toNat ≤ (scale 255 c).toNat := scale_mono c (Nat.le_of_lt_succ a.isLt)
  rwa [scale_comm a c, scale_comm 255 c, scale_opaque] at hopaque

/-- Settles O42: the laws are those above, and by symmetry they hold of either operand. -/
theorem scaleLaws : Obligations.ScaleLaws := by
  refine ⟨fun c a => ?_, fun _ _ a h => scale_mono a h, by decide, by decide, by decide, by decide, by decide, by decide⟩
  obtain ⟨hfloor, hnext⟩ := scale_bounds c a
  have hmin : (scale c a).toNat ≤ min c.toNat a.toNat :=
    le_min (scale_le_component c a) (scale_comm a c ▸ scale_le_component a c)
  exact ⟨scale_toNat c a, hfloor, hnext, hmin, scale_zero c, (scale_comm 0 a).trans (scale_zero a), scale_opaque c,
    (scale_comm 255 a).trans (scale_opaque a), scale_comm c a⟩

/-! ## The engine step -/

/-- Settles O39: unit `i` is bytes `4 * i` to `4 * i + 3` of the whole output, an alpha and three scaled components. -/
theorem premulStepWritesOneWord : Obligations.PremulStepWritesOneWord := by
  intro s hflight i fromAt toAt a
  obtain ⟨m, hexec, _, _, hbytes⟩ := exec_unit hflight
  have hindex : s.unitIndex (unitSize .premul) = i := rfl
  have hsize : unitSize .premul = 4 := rfl
  have hunits : units .premul s = s.width.toNat * s.height.toNat := rfl
  have hto : toAt = s.dst.toNat + 4 * i := rfl
  rw [hindex, hsize] at hbytes
  have hunit (k : Nat) (hk : k < 4) : (s.afterUnit .premul m).obufByte (toAt + k) = premulOut s (4 * i + k) := by
    refine (hbytes _).trans ?_
    rw [if_pos (by omega), hto, Nat.add_assoc, Nat.add_sub_cancel_left]
    rfl
  have halpha : ((s.afterUnit .premul m).obufByte (toAt + 0)).toNat = a := by
    rw [hunit 0 (by decide)]
    exact congrArg BitVec.toNat (premulOut_alpha s i)
  have hcolour (lane : Nat) (hl : lane < 3) : ((s.afterUnit .premul m).obufByte (toAt + (1 + lane))).toNat =
      (s.ibufByte (fromAt + lane)).toNat * a / 255 := by
    rw [hunit _ (by omega), ← Nat.add_assoc, premulOut_component s i hl]
    exact scale_toNat _ _
  have hred := hcolour 0 (by decide)
  have hgreen := hcolour 1 (by decide)
  have hblue := hcolour 2 (by decide)
  refine ⟨_, hexec, halpha, hred, hgreen, hblue, ?_, fun j hj => (hbytes j).trans (if_neg (by omega)), ?_⟩
  · rw [← hred, ← hgreen, ← hblue, ← halpha]
    exact wordOf_toNat _ _ _ _
  · rw [State.afterUnit, hindex, hunits]
    rfl

end Sys2Proof.Machine
end

section
/-! STRIP (43_strip.md R172, R174, R176): the two header fields that its checks look at, and the byte that one engine step
copies. -/

namespace Sys2Proof.Machine

variable {s s' : State}

/-! ## The two fields that STRIP validates -/

/-- METHOD looks at the low nibble of CMF only (R172). -/
theorem cmf_mask_iff (cmf : Byte) : cmf &&& 0x0F#8 ≠ 8#8 ↔ cmf.toNat % 16 ≠ 8 := by
  revert cmf; decide

/-- FDICT looks at bit 5 of FLG only (R172). -/
theorem flg_mask_iff (flg : Byte) : flg &&& 0x20#8 ≠ 0#8 ↔ flg.getLsbD 5 = true := by
  revert flg; decide

/-- What STRIP's checks depend on: the parameters, the operands of its spans, and two fields of the header. -/
structure SameHeaderFields (s s' : State) : Prop where
  cfg : s'.cfg = s.cfg
  src : s'.src = s.src
  dst : s'.dst = s.dst
  len : s'.len = s.len
  method : (s'.ibufByte s.src.toNat).toNat % 16 = (s.ibufByte s.src.toNat).toNat % 16
  fdict : (s'.ibufByte (s.src.toNat + 1)).getLsbD 5 = (s.ibufByte (s.src.toNat + 1)).getLsbD 5

/-- The same two fields fail the same check of STRIP. -/
theorem SameHeaderFields.stripCheck_snd (h : SameHeaderFields s s') : (stripCheck s').2 = (stripCheck s).2 := by
  have hrange : s'.outOfRange (stripSrcSpan s') (stripDstSpan s') = s.outOfRange (stripSrcSpan s) (stripDstSpan s) := by
    unfold State.outOfRange stripSrcSpan stripDstSpan State.bodyLen
    rw [h.cfg, h.src, h.dst, h.len]
  simp only [Machine.stripCheck_snd, cmf_mask_iff, flg_mask_iff, hrange, h.src, h.len, h.method, h.fdict]

/-- The checks' error and the number of units decide everything an accept reports in STATUS (R110, R113, R114). -/
theorem accept_status_congr {c : Command} (hcode : decodeCode s.opCode = .ok c) (hcode' : decodeCode s'.opCode = .ok c)
    (herror : (checks c s').2 = (checks c s).2) (hunits : units c s' = units c s) :
    s'.accept.busy = s.accept.busy ∧ s'.accept.done = s.accept.done ∧ s'.accept.err = s.accept.err ∧
      s'.accept.errCode = s.accept.errCode := by
  rw [accept_eq hcode, accept_eq hcode', herror, hunits]
  exact ⟨rfl, rfl, rfl, rfl⟩

/-- Settles O37: the two blocks get the same IE in the write and agree on all that STRIP's checks depend on. -/
theorem stripValidatesTwoFieldsOnly : Obligations.StripValidatesTwoFieldsOnly := by
  intro s m v hb hv hop hmethod hfdict
  let u : State := { s with ie := v.getLsbD 8 }
  have hcode : decodeCode s.opCode = .ok .strip := (decodeCode_ok_iff _ _).mpr hop
  have hsame : SameHeaderFields u { u with ibuf := m } := ⟨rfl, rfl, rfl, rfl, hmethod, hfdict⟩
  exact ⟨_, _, exec_start s v hb hv, exec_start { s with ibuf := m } v hb hv,
    accept_status_congr (c := .strip) (s := u) hcode hcode hsame.stripCheck_snd rfl⟩

/-! ## The engine step -/

/-- The engine step of a running STRIP, with the very OBUF that it leaves: body byte `OUT_COUNT` stored (R174). -/
theorem exec_strip_inFlight (h : InFlight .strip s) : exec .strip s = .next (s.afterUnit .strip
    (s.writeObuf (s.dst.toNat + s.outCount.toNat) (s.ibufByte (s.src.toNat + 2 + s.outCount.toNat))).obuf) := by
  have hindex : s.unitIndex (unitSize .strip) = s.outCount.toNat := Nat.div_one _
  have hunit := stripUnit_ok h.fits h.more
  rw [hindex] at hunit
  simp only [exec, execStrip, h.busy, if_true]
  exact engineStep_ok h (hindex ▸ hunit)

/-- Settles O40: the byte read is body byte `i`, inside the body because `i` is less than `LEN - 6`, so a block that has the
same body stores the same byte. -/
theorem stripStepCopiesOneByte : Obligations.StripStepCopiesOneByte := by
  intro s hflight i
  have hindex : s.unitIndex (unitSize .strip) = i := Nat.div_one _
  have hunits : units .strip s = s.len.toNat - 6 := rfl
  have hmore : i < s.len.toNat - 6 := hindex ▸ hflight.more
  have hbyte (j : Nat) := State.obufByte_writeObuf s (s.dst.toNat + i) j (s.ibufByte (s.src.toNat + 2 + i))
  refine ⟨_, exec_strip_inFlight hflight, (hbyte _).trans (if_pos rfl), fun j hj => (hbyte j).trans (if_neg hj), ?_,
    fun m hbody => ?_⟩
  · rw [State.afterUnit, hindex, hunits]
    rfl
  · have hread : State.ibufByte { s with ibuf := m } (s.src.toNat + 2 + i) = s.ibufByte (s.src.toNat + 2 + i) :=
      hbody _ (by omega) (by omega)
    rw [exec_strip_inFlight (hflight.buffers m s.obuf), ← hread]
    rfl

end Sys2Proof.Machine
end

section
/-! The bus errors and the idle block (60_exceptions.md R197, R206): the causes of SLVERR by where an offset leads, held against
what each access answers, and the engine's turn of an idle block. -/

namespace Sys2Proof.Machine

variable {s : State} {a : HostAccess} {off : Offset}

/-! ## The causes, by where the offset leads -/

/-- A 16-bit access has a cause wherever its offset leads. -/
theorem BusErrorCause.of_halfword (h : a.size = 16) : BusErrorCause s a := by
  by_cases hreg : InRegisters a.off
  · exact .registerSize ⟨hreg, .inr h⟩
  · by_cases hbuf : InBuffers s.cfg a.off
    · exact .bufferSize ⟨hbuf, h⟩
    · exact .unmapped ⟨hreg, hbuf⟩

/-- In a buffer only BUSY, the size and the alignment count: the other rows speak of other offsets, or of BUSY too. -/
theorem busErrorCause_buffer_iff (hbuf : InBuffers s.cfg a.off) :
    BusErrorCause s a ↔ s.busy = true ∨ a.size = 16 ∨ (a.size = 32 ∧ a.off.toNat % 4 ≠ 0) := by
  have hreg : ¬InRegisters a.off := by
    unfold InRegisters
    unfold InBuffers at hbuf
    omega
  constructor
  · intro h
    cases h with
    | unmapped h => exact absurd hbuf h.2
    | registerSize h | registerMisaligned h => exact absurd h.1 hreg
    | bufferSize h => exact .inr (.inl h.2)
    | bufferMisaligned h => exact .inr (.inr h.2)
    | bufferBusy h => exact .inl h.2
    | operandBusy h | startBusy _ h => exact .inl h.1
  · rintro (hb | h16 | h32)
    · exact .bufferBusy ⟨hbuf, hb⟩
    · exact .of_halfword h16
    · exact .bufferMisaligned ⟨hbuf, h32⟩

theorem operandRegister_iff_offset (r : Reg) :
    (r = .op ∨ r = .src ∨ r = .dst ∨ r = .width ∨ r = .height ∨ r = .len) ↔
      ((regOffset r).toNat = 0x00C ∨ (regOffset r).toNat = 0x010 ∨ (regOffset r).toNat = 0x014 ∨
        (regOffset r).toNat = 0x018 ∨ (regOffset r).toNat = 0x01C ∨ (regOffset r).toNat = 0x020) := by
  cases r <;> decide

theorem ctrl_iff_offset (r : Reg) : r = .ctrl ↔ (regOffset r).toNat = 0x004 := by cases r <;> decide

/-- A 32-bit access of a register has a cause exactly when it is a write that the interlock refuses (40_command.md R119). -/
theorem busErrorCause_register_iff {r : Reg} {w : Option Word} (hoff : off.toNat = (regOffset r).toNat) :
    BusErrorCause s ⟨32, off, w⟩ ↔ ∃ v, w = some v ∧ writeReg s r v = none := by
  have hreg : InRegisters off := hoff.trans_lt (regOffset_lt r)
  have hbuf : ¬InBuffers s.cfg off := by
    unfold InBuffers
    unfold InRegisters at hreg
    omega
  have haligned : off.toNat % 4 = 0 := by
    rw [hoff]
    cases r <;> rfl
  simp only [writeReg_none]
  constructor
  · intro h
    cases h with
    | unmapped h => exact absurd hreg h.1
    | registerSize h => exact absurd h.2 (by simp)
    | registerMisaligned h => exact absurd haligned h.2.2
    | bufferSize h | bufferMisaligned h | bufferBusy h => exact absurd h.1 hbuf
    | operandBusy h =>
      obtain ⟨hb, hw, hlist⟩ := h
      obtain ⟨v, rfl⟩ := Option.isSome_iff_exists.mp hw
      have hr := (operandRegister_iff_offset r).mpr (hoff ▸ hlist)
      exact ⟨v, rfl, hb, by tauto⟩
    | startBusy v h =>
      obtain ⟨hb, hw, hctrl, hstart⟩ := h
      have hr := (ctrl_iff_offset r).mpr (hoff ▸ hctrl)
      exact ⟨v, hw, hb, by tauto⟩
  · rintro ⟨v, rfl, hb, hlocked⟩
    by_cases hr : r = .ctrl
    · subst hr
      obtain ⟨-, hstart⟩ : Reg.ctrl = .ctrl ∧ IsStart v := by simpa [IsStart] using hlocked
      exact .startBusy v ⟨hb, rfl, hoff, hstart⟩
    · have hlist := (operandRegister_iff_offset r).mp (by tauto)
      exact .operandBusy ⟨hb, rfl, hoff ▸ hlist⟩

/-! ## The causes, by what the map of offsets answers -/

theorem inBuffers_ibuf {p : Params} {k : Nat} (hoff : off.toNat = 0x100000 + k) (hk : k < p.ibufBytes) :
    InBuffers p off := .inl (by omega)

theorem inBuffers_obuf {p : Params} {k : Nat} (hoff : off.toNat = 0x200000 + k) (hk : k < p.obufBytes) :
    InBuffers p off := .inr (by omega)

theorem busErrorCause8_iff (s : State) (off : Offset) (w : Option Word) :
    BusErrorCause s ⟨8, off, w⟩ ↔ match locate s.cfg off with
      | .registers | .unmapped => True
      | .ibuf _ | .obuf _ => s.busy = true := by
  have hbuffer (hbuf : InBuffers s.cfg off) : BusErrorCause s ⟨8, off, w⟩ ↔ s.busy = true := by
    simp [busErrorCause_buffer_iff (a := ⟨8, off, w⟩) hbuf]
  rcases locate_cases s.cfg off with ⟨hl, hreg⟩ | ⟨k, hl, hoff, hk⟩ | ⟨k, hl, hoff, hk⟩ | ⟨hl, hout⟩ <;> rw [hl]
  · exact iff_of_true (.registerSize ⟨hreg, .inl rfl⟩) trivial
  · exact hbuffer (inBuffers_ibuf hoff hk)
  · exact hbuffer (inBuffers_obuf hoff hk)
  · exact iff_of_true (.unmapped hout) trivial

/-- The windows begin at multiples of 4, so an offset is aligned when its index in the buffer is (20_memory.md R63). -/
theorem busErrorCause32_iff (s : State) (off : Offset) (w : Option Word) :
    BusErrorCause s ⟨32, off, w⟩ ↔ match locate s.cfg off with
      | .registers =>
        match regAt off.toNat with
        | some r => ∃ v, w = some v ∧ writeReg s r v = none
        | none => True
      | .ibuf k | .obuf k => s.busy = true ∨ k % 4 ≠ 0
      | .unmapped => True := by
  have hbuffer {k : Nat} (hbuf : InBuffers s.cfg off) (h4 : off.toNat % 4 = k % 4) :
      BusErrorCause s ⟨32, off, w⟩ ↔ s.busy = true ∨ k % 4 ≠ 0 := by
    simp [busErrorCause_buffer_iff (a := ⟨32, off, w⟩) hbuf, h4]
  rcases locate_cases s.cfg off with ⟨hl, hreg⟩ | ⟨k, hl, hoff, hk⟩ | ⟨k, hl, hoff, hk⟩ | ⟨hl, hout⟩ <;> rw [hl]
  · rcases regAt_cases off.toNat hreg with ⟨r, hr, hoff⟩ | ⟨hr, h4⟩ <;> rw [hr]
    · exact busErrorCause_register_iff hoff
    · exact iff_of_true (.registerMisaligned ⟨hreg, rfl, h4⟩) trivial
  · exact hbuffer (inBuffers_ibuf hoff hk) (by omega)
  · exact hbuffer (inBuffers_obuf hoff hk) (by omega)
  · exact iff_of_true (.unmapped hout) trivial

/-! ## What each access answers -/

theorem readReply8_slverr_iff (s : State) (off : Offset) :
    readReply8 s off = .slverr ↔ BusErrorCause s ⟨8, off, none⟩ := by
  rw [busErrorCause8_iff, readReply8]
  cases locate s.cfg off <;> simp

theorem writeEffect8_none_iff (s : State) (off : Offset) (v : Word) :
    writeEffect8 s off v = none ↔ BusErrorCause s ⟨8, off, some v⟩ := by
  rw [busErrorCause8_iff, writeEffect8]
  cases locate s.cfg off <;> simp

theorem readReply32_slverr_iff (s : State) (off : Offset) :
    readReply32 s off = .slverr ↔ BusErrorCause s ⟨32, off, none⟩ := by
  rw [busErrorCause32_iff, readReply32]
  cases locate s.cfg off with
  | registers => cases regAt off.toNat <;> simp
  | ibuf k | obuf k => simp [← Bool.not_eq_true, ← or_iff_not_imp_left]
  | unmapped => simp

theorem writeEffect32_none_iff (s : State) (off : Offset) (v : Word) :
    writeEffect32 s off v = none ↔ BusErrorCause s ⟨32, off, some v⟩ := by
  rw [busErrorCause32_iff, writeEffect32]
  cases locate s.cfg off with
  | registers => cases regAt off.toNat <;> simp
  | ibuf k | obuf k => simp [← Bool.not_eq_true, ← or_iff_not_imp_left]
  | unmapped => simp

/-- A write answers, with SLVERR exactly when it has no effect (20_memory.md R66). -/
theorem answerWrite_reply (s : State) (effect : Option State) :
    ∃ r, (s.answerWrite effect).reply = some r ∧ (r = .slverr ↔ effect = none) := by
  cases effect with
  | none => exact ⟨.slverr, rfl, iff_of_true rfl rfl⟩
  | some t => exact ⟨.done, rfl, iff_of_false nofun nofun⟩

/-- Settles O27: each of the six accesses answers SLVERR exactly when it has a cause. -/
theorem slverrForExactlyTheListedCauses : Obligations.SlverrForExactlyTheListedCauses := by
  intro s i a ha
  cases i <;> cases ha
  case rd8 off => exact ⟨_, _, rfl, rfl, readReply8_slverr_iff s off⟩
  case rd32 off => exact ⟨_, _, rfl, rfl, readReply32_slverr_iff s off⟩
  case rd16 | wr16 => exact ⟨_, _, rfl, rfl, iff_of_true rfl (.of_halfword rfl)⟩
  case wr8 off v =>
    obtain ⟨r, hreply, hr⟩ := answerWrite_reply s (writeEffect8 s off v)
    exact ⟨_, r, rfl, hreply, hr.trans (writeEffect8_none_iff s off v)⟩
  case wr32 off v =>
    obtain ⟨r, hreply, hr⟩ := answerWrite_reply s (writeEffect32 s off v)
    exact ⟨_, r, rfl, hreply, hr.trans (writeEffect32_none_iff s off v)⟩

/-! ## The engine's turn of an idle block -/

/-- Settles O12: the step drops its turn, and the engine's turn does nothing while BUSY is 0. -/
theorem idleBlockTakesNoEngineStep : Obligations.IdleBlockTakesNoEngineStep := by
  intro s rest hturn hb
  simp only [step, hturn, takeTurn]
  exact engineTurn_idle (s := { s with schedule := rest }) hb

end Sys2Proof.Machine
end

section
/-! Resets, and a read straight after a write (70_reset_and_hazards.md R220 to R223, R229): the registers at reset, the two
resets, what a soft reset leaves of a running command, and ROW_BYTES after a write of WIDTH. -/

namespace Sys2Proof.Machine

variable {c : Command} {s s₀ : State}

/-! ## The registers at reset -/

/-- A state that is its own soft reset has every register at its reset value (10_state.md R21): its fields are
0, and only ID does not follow them. -/
theorem readReg_at_reset (h : s.softReset = s) (r : Reg) : readReg s r = if r = .id then 0x53560001#32 else 0#32 := by
  rw [← h]
  cases r
  case id => rfl
  all_goals
    apply BitVec.eq_of_toNat_eq
    simp [readReg_toNat]

/-- Settles O6: the state after reset is its own soft reset, with no byte written. -/
theorem resetStateMeetsTheTable : Obligations.ResetStateMeetsTheTable := fun _ =>
  ⟨readReg_at_reset rfl, rfl, fun _ => rfl, fun _ => rfl⟩

/-! ## The two resets -/

theorem step_of_hardResetTurn {rest : List Turn} (h : s.schedule = .hardReset :: rest) :
    step s = .next (State.hardReset { s with schedule := rest }) := by
  simp only [step, h, takeTurn]

/-- Settles O7: the state a hard reset leaves is its own soft reset, with no byte written since. -/
theorem hardResetSetsEveryRegister : Obligations.HardResetSetsEveryRegister := fun _ _ hturn =>
  ⟨_, step_of_hardResetTurn hturn, readReg_at_reset rfl, rfl, fun _ => rfl, fun _ => rfl, rfl, rfl, rfl, rfl, rfl, rfl, rfl⟩

/-- A write of CTRL with SRST set is a soft reset, whatever its other bits and whether or not a command runs (10_state.md
R23). -/
theorem exec_softReset {v : Word} (h1 : v.getLsbD 1 = true) :
    exec (.wr32 (regOffset .ctrl) v) s = .next { s.softReset with reply := some .done } :=
  exec_wr32_reg_some (writeReg_ctrl_reset h1)

/-- Settles O8: a soft reset writes the registers only. -/
theorem softResetKeepsTheBuffers : Obligations.SoftResetKeepsTheBuffers := fun _ _ h1 =>
  ⟨_, exec_softReset h1, rfl, readReg_at_reset rfl, rfl, fun _ => rfl, fun _ => rfl, rfl, rfl, rfl, rfl, rfl, rfl, rfl⟩

/-! ## A soft reset of a running command -/

/-- A run that is BUSY throughout, its end included, is still inside the command accepted at its start. -/
theorem running_of_run {n : Nat} (hsize : s₀.cfg.obufBytes ≤ 0x100000) (hflight : InFlight c s₀) (h0 : s₀.outCount = 0)
    (hbusy : busyFor n s₀) (hrun : stepsTo n s₀ s) (hb : s.busy = true) : InFlight c s ∧ Progress c s₀ s := by
  cases runState_of_run hsize hflight h0 hbusy hrun with
  | running hfl hprogress => exact ⟨hfl, hprogress⟩
  | completed _ hidle _ => cases hidle.symm.trans hb
  | reset hidle _ => cases hidle.symm.trans hb

/-- Settles O53: the run has written its first units of output and nothing else, and the soft reset keeps OBUF. -/
theorem softResetLeavesAPrefix : Obligations.SoftResetLeavesAPrefix := by
  intro c n s₀ s₁ v hinv hflight h0 hbusy hrun hb h1
  obtain ⟨_, _, _, _, _, _, hsize⟩ := Params.bounds hinv.params
  obtain ⟨hfl, hprogress⟩ := running_of_run hsize hflight h0 hbusy hrun hb
  have hbytes := hprogress.written
  rw [hfl.count] at hbytes
  refine ⟨hprogress.units_eq ▸ hfl.more, _, exec_softReset h1, fun j hj => ?_, fun i hi => ?_, rfl, rfl, rfl, rfl⟩
  · refine (hbytes _).trans ?_
    rw [if_pos (by omega), Nat.add_sub_cancel_left]
  · exact (hbytes i).trans (if_neg (by omega))

/-! ## ROW_BYTES straight after a write of WIDTH -/

/-- The low half of a word, zero-extended. -/
theorem setWidth_half_setWidth (v : Word) : (v.setWidth 16).setWidth 32 = v &&& 0xFFFF#32 := by
  apply BitVec.eq_of_toNat_eq
  rw [BitVec.toNat_setWidth_of_le (by decide), BitVec.toNat_setWidth, BitVec.toNat_and]
  exact (Nat.and_two_pow_sub_one_eq_mod v.toNat 16).symm

/-- ROW_BYTES in the mask form of 41_pack.md R131. -/
theorem readReg_rowBytes (s : State) :
    readReg s .rowBytes = ((s.width.setWidth 32 + 31#32) &&& ~~~31#32) >>> 3 := by
  have hw := s.width.isLt
  apply BitVec.eq_of_toNat_eq
  rw [← paddedWidth_eq_mask, readReg_toNat, BitVec.toNat_ushiftRight, BitVec.toNat_ofNat, Nat.shiftRight_eq_div_pow,
    paddedWidth]
  show (s.width.toNat + 31) / 32 * 4 = _
  omega

/-- Settles O47: ROW_BYTES is a function of the WIDTH field, and the write sets that field to the low half of its data. -/
theorem rowBytesFollowsWidth : Obligations.RowBytesFollowsWidth := by
  intro s v hb
  have hwrite : writeReg s .width v = some { s with width := v.setWidth 16 } := whenIdle_idle hb _
  refine ⟨_, exec_wr32_reg_some hwrite, (exec_rd32_reg .rowBytes _).trans ?_⟩
  rw [readReg_rowBytes, ← setWidth_half_setWidth]
  rfl

end Sys2Proof.Machine
end
